-- ==== Sys2Proof/Word.lean ====
section
/-! DEFINITION. The bit-vector types of the spec (00_scope.md R5 to R7): bytes, 16-bit words, the
32-bit command word and host register, and the 8-bit register offset. -/

namespace Sys2Proof

/-- A CRC data byte, a received PEC byte or the B field of a command word. -/
abbrev Byte := BitVec 8

/-- A linear11 word, a linear16 raw word or the W field of a command word. -/
abbrev Half := BitVec 16

/-- A 32-bit command word (R60) or host register value (R41). -/
abbrev Word := BitVec 32

/-- A byte offset in the host register space (R40): 0x00 to 0xFF. -/
abbrev Offset := BitVec 8

end Sys2Proof
end

