-- ==== Sys2Proof/Config.lean ====
section
/-! DEFINITION. What the spec leaves to an implementation.  The block has one open parameter,
HOST_BASE (00_scope.md R5), which the model takes as an argument where it is needed
(`hostAddress`), and one source of values nothing determines: the registers after a loss of power
without a reset (93_implementation_defined.md U5). -/

namespace Sys2Proof

/-- The free values of U5 (log entry 9): nothing is known of any of them. -/
opaque Config.freeWord : Nat → Word

end Sys2Proof
end

