-- ==== Sys2Proof/Syntax.lean ====
section
/-! DEFINITION. The seven commands of the block, one constructor per row of the opcode table
(30_encoding.md R63), with the operands of R62. -/

namespace Sys2Proof

/-- A command of the block.  Operands are the command word's own fields: nothing is scaled or
extended at decode (R62). -/
inductive Instr where
  /-- NOP (42_control.md R120). -/
  | nop
  /-- CRC_CLR (41_pec.md R103). -/
  | crcClr
  /-- CRC_BYTE with its data byte B (41_pec.md R104). -/
  | crcByte (b : Byte)
  /-- CRC_CHECK with the received PEC byte B (41_pec.md R105). -/
  | crcCheck (p : Byte)
  /-- LIN11 with the linear11 word W (40_linear.md R85). -/
  | lin11 (w : Half)
  /-- LIN16 with the raw word W and the whole byte B (40_linear.md R86): bits 4:0 are the exponent
  field, bits 7:5 are carried here and ignored by the meaning (R66). -/
  | lin16 (b : Byte) (w : Half)
  /-- STAT_CLR (42_control.md R121). -/
  | statClr
  deriving DecidableEq, Repr

end Sys2Proof
end

