-- ==== Sys2Proof/Asm.lean ====
section
/-! DEFINITION. The assembler's source lines: the core spellings of 30_encoding.md R68 and the
pseudo-instructions of R69.  Operands are plain numbers, because the assembler is what checks that
they fit (WellFormed.lean). -/

namespace Sys2Proof

/-- A core line of R68: one line, one command word. -/
inductive CoreLine where
  | nop
  | crcClr
  | crcByte (b : Nat)
  | crcCheck (p : Nat)
  | lin11 (w : Nat)
  | lin16 (w ef : Nat)
  | statClr
  /-- `.word v`: any word, legal or illegal. -/
  | word (v : Nat)
  deriving DecidableEq, Repr

/-- A source line: a core line, or a pseudo-instruction of R69, which is spelling only. -/
inductive AsmLine where
  | core (l : CoreLine)
  /-- `lin11.b lsb, msb` -/
  | lin11Bytes (lsb msb : Nat)
  /-- `lin16.e w, e` with a signed exponent -/
  | lin16Exp (w : Nat) (e : Int)
  /-- `pec.aw a`: the write address byte -/
  | pecAddrWrite (a : Nat)
  /-- `pec.ar a`: the read address byte -/
  | pecAddrRead (a : Nat)
  /-- `crc.seq b0, ..., bk` -/
  | crcSeq (bs : List Nat)
  /-- `pec.wframe a, c, p0, ..., pk` -/
  | pecWriteFrame (a c : Nat) (payload : List Nat)
  /-- `pec.rcmd a, c` -/
  | pecReadCommand (a c : Nat)
  /-- `pec.rframe a, c, d0, ..., dk, p` -/
  | pecReadFrame (a c : Nat) (received : List Nat) (p : Nat)
  deriving DecidableEq, Repr

end Sys2Proof
end

