-- ==== Sys2Proof/WellFormed.lean ====
section
/-! DEFINITION. Well-formedness.  Every operand of `Instr` carries its width in its type (a byte, a
16-bit word), so no term of `Instr` is ill formed; the checks the spec gives are the operand ranges
of the assembler (30_encoding.md R68, R69: "the assembler rejects values outside it").  The reserved
fields of a command WORD are the decoder's check (Decode.lean). -/

namespace Sys2Proof

/-- A number that fits a byte operand (R68: 0..255). -/
def fitsByte (n : Nat) : Bool := decide (n < 256)

/-- A number that fits a 16-bit operand (R68: 0..65535). -/
def fitsHalf (n : Nat) : Bool := decide (n < 65536)

/-- A 7-bit device address (R69: 0..127). -/
def fitsAddress (n : Nat) : Bool := decide (n < 128)

/-- A signed exponent of `lin16.e` (R69: −16..15). -/
def fitsExponent (e : Int) : Bool := decide (-16 ≤ e ∧ e ≤ 15)

/-- The operand ranges of R68. -/
def CoreLine.wellFormed : CoreLine → Bool
  | .nop => true
  | .crcClr => true
  | .crcByte b => fitsByte b
  | .crcCheck p => fitsByte p
  | .lin11 w => fitsHalf w
  | .lin16 w ef => fitsHalf w && fitsByte ef
  | .statClr => true
  | .word v => decide (v < 4294967296)

/-- The operand ranges of R69; a command, payload or PEC byte has the range of the `crc.byte` or
`crc.check` it expands to.  An empty byte list is accepted (log entry 13). -/
def AsmLine.wellFormed : AsmLine → Bool
  | .core l => l.wellFormed
  | .lin11Bytes lsb msb => fitsByte lsb && fitsByte msb
  | .lin16Exp w e => fitsHalf w && fitsExponent e
  | .pecAddrWrite a => fitsAddress a
  | .pecAddrRead a => fitsAddress a
  | .crcSeq bs => bs.all fitsByte
  | .pecWriteFrame a c payload => fitsAddress a && fitsByte c && payload.all fitsByte
  | .pecReadCommand a c => fitsAddress a && fitsByte c
  | .pecReadFrame a c received p =>
      fitsAddress a && fitsByte c && received.all fitsByte && fitsByte p

end Sys2Proof
end

