-- ==== Sys2Proof/Decode.lean ====
section
/-! DEFINITION. The command encoding: fields (30_encoding.md R61), the opcode map with its match and
mask pairs (R63), the decoder, total on all 32-bit words (R70), and the encoder. -/

namespace Sys2Proof

/-- Why a word selects no command (60_exceptions.md R131). -/
inductive IllegalCause where
  /-- Cause 1: the opcode is not one of the seven (R132). -/
  | unassignedOpcode
  /-- Cause 2: an assigned opcode with a non-zero reserved field (R133). -/
  | reservedNonzero
  deriving DecidableEq, Repr

/-- What a command word is: one of the seven commands, or illegal with one cause (R70). -/
inductive Decoded where
  | command (i : Instr)
  | illegal (c : IllegalCause)
  deriving DecidableEq, Repr

/-- The seven rows of the opcode map, without operands. -/
inductive CommandKind where
  | nop | crcClr | crcByte | crcCheck | lin11 | lin16 | statClr
  deriving DecidableEq, Repr

/-- One row of the opcode map (R63). -/
structure CommandRow where
  kind : CommandKind
  op : Byte
  pattern : Word
  mask : Word
  deriving DecidableEq, Repr

/-- OP, bits 31:24 (R61). -/
def opField (v : Word) : Byte := v.extractLsb' 24 8

/-- B, bits 23:16 (R61). -/
def bField (v : Word) : Byte := v.extractLsb' 16 8

/-- W, bits 15:0 (R61). -/
def wField (v : Word) : Half := v.extractLsb' 0 16

/-- The opcode map of R63, row by row. -/
def commandTable : List CommandRow :=
  [ ⟨.nop, 0x00#8, 0x00000000#32, 0xFFFFFFFF#32⟩,
    ⟨.crcClr, 0x01#8, 0x01000000#32, 0xFFFFFFFF#32⟩,
    ⟨.crcByte, 0x02#8, 0x02000000#32, 0xFF00FFFF#32⟩,
    ⟨.crcCheck, 0x03#8, 0x03000000#32, 0xFF00FFFF#32⟩,
    ⟨.lin11, 0x10#8, 0x10000000#32, 0xFFFF0000#32⟩,
    ⟨.lin16, 0x11#8, 0x11000000#32, 0xFF000000#32⟩,
    ⟨.statClr, 0x20#8, 0x20000000#32, 0xFFFFFFFF#32⟩ ]

/-- The row a word's opcode names, if it is assigned (R63, R65). -/
def rowOf (op : Byte) : Option CommandRow := commandTable.find? fun r => r.op == op

/-- Does the word match the row, `(v & mask) = match` (R63)? -/
def CommandRow.selects (r : CommandRow) (v : Word) : Bool := v &&& r.mask == r.pattern

/-- The command a selecting word stands for, with the operands of R62. -/
def buildCommand (k : CommandKind) (v : Word) : Instr :=
  match k with
  | .nop => .nop
  | .crcClr => .crcClr
  | .crcByte => .crcByte (bField v)
  | .crcCheck => .crcCheck (bField v)
  | .lin11 => .lin11 (wField v)
  | .lin16 => .lin16 (bField v) (wField v)
  | .statClr => .statClr

/-- The decode of R63, in its order: the opcode first, then the reserved fields (R137). -/
def decode (v : Word) : Decoded :=
  match rowOf (opField v) with
  | none => .illegal .unassignedOpcode
  | some r => if r.selects v then .command (buildCommand r.kind v) else .illegal .reservedNonzero

/-- The row of a command. -/
def Instr.kind : Instr → CommandKind
  | .nop => .nop
  | .crcClr => .crcClr
  | .crcByte _ => .crcByte
  | .crcCheck _ => .crcCheck
  | .lin11 _ => .lin11
  | .lin16 _ _ => .lin16
  | .statClr => .statClr

/-- The opcode of a command (R63). -/
def opcodeOf : CommandKind → Byte
  | .nop => 0x00#8
  | .crcClr => 0x01#8
  | .crcByte => 0x02#8
  | .crcCheck => 0x03#8
  | .lin11 => 0x10#8
  | .lin16 => 0x11#8
  | .statClr => 0x20#8

/-- The B field of a command's word (R62, R63): zero where it is reserved. -/
def Instr.bOperand : Instr → Byte
  | .crcByte b => b
  | .crcCheck p => p
  | .lin16 b _ => b
  | .nop => 0#8
  | .crcClr => 0#8
  | .lin11 _ => 0#8
  | .statClr => 0#8

/-- The W field of a command's word (R62, R63): zero where it is reserved. -/
def Instr.wOperand : Instr → Half
  | .lin11 w => w
  | .lin16 _ w => w
  | .nop => 0#16
  | .crcClr => 0#16
  | .crcByte _ => 0#16
  | .crcCheck _ => 0#16
  | .statClr => 0#16

/-- The command word of a command: OP, B and W side by side (R61). -/
def encode (i : Instr) : Word := opcodeOf i.kind ++ i.bOperand ++ i.wOperand

/-- The command a decoded word stands for, if it is one. -/
def Decoded.command? : Decoded → Option Instr
  | .command i => some i
  | .illegal _ => none

/-- The opcode table's numbering of a word's bits is the command word's own (R60: one 32-bit word,
written by one 32-bit host access), so the word is `w` cut to the row's `nbits`. -/
def tableWord (nbits w : Nat) : Word := BitVec.ofNat 32 (w % 2 ^ nbits)

/-- What the decoder reads from a word the opcode table numbers. -/
def decodeTableWord (nbits w : Nat) : Option Instr := (decode (tableWord nbits w)).command?

end Sys2Proof
end

