-- ==== Sys2Proof/Machine/State.lean ====
section
/-! DEFINITION. The state of the block (10_state.md R20), the host side the model adds beside it, and
the reset state (70_reset_and_hazards.md R151). -/

namespace Sys2Proof.Machine

/-- A host access to the register space at a byte offset, `n` bytes wide (00_scope.md R9):
`MemRead(off, n)` and `MemWrite(off, n, v)`.  Only `n = 4` at a multiple of 4 is supported
(20_memory.md R42); of a write with another `n`, which is refused, the value is never looked at. -/
inductive Access where
  | memRead (off : Offset) (n : Nat)
  | memWrite (off : Offset) (n : Nat) (v : Word)
  deriving DecidableEq, Repr

/-- What can happen to the block from outside. -/
inductive Event where
  /-- Host number `host` makes an access (R10); more than one host is refused (R54). -/
  | access (host : Nat) (a : Access)
  /-- A reset between two accesses (R150). -/
  | reset
  /-- A reset during an access (93_implementation_defined.md U6). -/
  | resetDuring (host : Nat) (a : Access)
  /-- A loss of power without a reset (60_exceptions.md R144, 93_implementation_defined.md U5). -/
  | powerLoss
  deriving DecidableEq, Repr

/-- The block's state: exactly the rows of R20.  CMD is a write port and holds nothing. -/
structure Block where
  /-- CRC, the PEC accumulator (R21). -/
  crc : BitVec 8
  /-- MANT, the signed mantissa of the latest decode (R22). -/
  mant : BitVec 16
  /-- EXP, the signed exponent of the latest decode (R23). -/
  exp : BitVec 5
  /-- FVAL, the binary32 value of the latest decode (R24). -/
  fval : BitVec 32
  /-- STATUS.PECERR (R26). -/
  pecerr : Bool
  /-- STATUS.ILL (R27). -/
  ill : Bool
  /-- STATUS.RKIND (R28). -/
  rkind : BitVec 2
  /-- STATUS.CAUSE (R29). -/
  cause : BitVec 2
  /-- BADCMD (R30). -/
  badcmd : BitVec 32
  /-- `ci`, the number of command words written to CMD since reset (R31). -/
  ci : Nat
  deriving DecidableEq, Repr

/-- The block and, beside it, the model's own fields (log entry 1): the events still to come, what the
host's reads returned, the one host the block serves, and how many free values have been used. -/
structure State where
  block : Block
  /-- The events still to come, the next one first (70_reset_and_hazards.md R158). -/
  pending : List Event
  /-- The values the host's reads returned, oldest first (R158). -/
  reads : List Word
  /-- The one host the block serves (60_exceptions.md R142); `none` before the first access. -/
  boundHost : Option Nat
  /-- How many free values (`Config.freeWord`) have been used. -/
  freeCount : Nat
  deriving DecidableEq, Repr

/-- The block raises no trap (R130): no step ends in a fault, so there is no reason for one. -/
inductive Fault where
  deriving DecidableEq, Repr

/-- Why a step is refused.  Every one of them is SAFE: the model stops. -/
inductive Refusal where
  /-- An instruction without a meaning, raised by `exec`'s arms only (none in this model). Safe. -/
  | notModelled (mnemonic : String)
  /-- An access that is not 32 bits wide or not at a multiple of 4, raised by the access check
  (20_memory.md R42, U1). Safe: the model stops where a part might go on. -/
  | unsupportedAccess
  /-- An access by a host other than the one the block serves, raised by the host check
  (20_memory.md R54, U4). Safe: the model stops where a part would mix both hosts' commands. -/
  | secondHost
  /-- A reset during an access, raised by that event (U6). Safe: the model stops. -/
  | resetDuringAccess
  /-- An access to a block whose RKIND is 0b11 or CAUSE is 3, values no run from a legal launch
  state produces, raised by the launch check (U7). Safe: the model stops. -/
  | reservedLaunchState
  deriving DecidableEq, Repr

/-- The block right after reset (R20, R151): every register's value is the spec's. -/
def Block.reset : Block where
  crc := 0x00#8
  mant := 0x0000#16
  exp := 0b00000#5
  fval := 0x00000000#32
  pecerr := false
  ill := false
  rkind := 0b00#2
  cause := 0b00#2
  badcmd := 0x00000000#32
  ci := 0

/-- The machine right after reset: no event to come, nothing read, no host bound, no free value used
(log entries 1, 6 and 9). -/
def State.reset : State where
  block := Block.reset
  pending := []
  reads := []
  boundHost := none
  freeCount := 0

end Sys2Proof.Machine
end

