-- ==== Sys2Proof/Machine/Operands.lean ====
section
/-! DEFINITION. Operand forms: sign extension (00_scope.md R7), the fields of a linear11 word
(40_linear.md R80), the linear16 exponent field (R62) and the two PEC address bytes (30_encoding.md
R69). -/

namespace Sys2Proof.Machine

/-- `sext_N` (R7): the bits read as a two's-complement integer. -/
def sext {n : Nat} (v : BitVec n) : Int := v.toInt

/-- `zext_W` (R7): the bits read as unsigned, in a wider word. -/
def zext {n : Nat} (w : Nat) (v : BitVec n) : BitVec w := BitVec.ofNat w v.toNat

/-- `enc_W` (R7): the two's-complement encoding modulo 2^W. -/
def enc (w : Nat) (i : Int) : BitVec w := BitVec.ofInt w i

/-- The linear11 word of its two bytes, low byte first (20_memory.md R46 item 1). -/
def lin11Word (lsb msb : Byte) : Half := msb ++ lsb

/-- The exponent field of a linear11 word, bits 15:11 (R80). -/
def lin11Exponent (w : Half) : BitVec 5 := w.extractLsb' 11 5

/-- The mantissa field of a linear11 word, bits 10:0 (R80). -/
def lin11Mantissa (w : Half) : BitVec 11 := w.extractLsb' 0 11

/-- The exponent field of LIN16's byte, bits 4:0 (R62); bits 7:5 are ignored (R66). -/
def lin16Exponent (b : Byte) : BitVec 5 := b.extractLsb' 0 5

/-- The write address byte of a 7-bit device address (30_encoding.md R69). -/
def addressWriteByte (a : Nat) : Byte := BitVec.ofNat 8 (a <<< 1)

/-- The read address byte of a 7-bit device address (30_encoding.md R69). -/
def addressReadByte (a : Nat) : Byte := BitVec.ofNat 8 ((a <<< 1) ||| 1)

end Sys2Proof.Machine
end

