-- ==== Sys2Proof/Machine/Binary32.lean ====
section
/-! DEFINITION. The binary32 result of the decoders (40_linear.md R84). -/

namespace Sys2Proof.Machine

/-- The index of the highest 1 bit of a non-zero number (R84's `k`). -/
def highestBit (a : Nat) : Nat := Nat.log2 a

/-- `to_binary32` (R84): the exact binary32 encoding of `M × 2^E`, +0.0 for `M = 0`.  The spec gives it
for M in −32768..32767 and E in −16..15, which are all the decoders ever pass (log entry 15). -/
def toBinary32 (m e : Int) : Word :=
  if m = 0 then 0x00000000#32
  else
    let a := m.natAbs
    let k := highestBit a
    let sign : BitVec 1 := BitVec.ofBool (decide (m < 0))
    let bexp : BitVec 8 := BitVec.ofInt 8 ((k : Int) + e + 127)
    let frac : BitVec 23 := BitVec.ofNat 23 ((a - 2 ^ k) <<< (23 - k))
    sign ++ bexp ++ frac

end Sys2Proof.Machine
end

