-- ==== Sys2Proof/Machine/Crc.lean ====
section
/-! DEFINITION. The CRC-8 function of the PEC engine (41_pec.md R100 to R102). -/

namespace Sys2Proof.Machine

/-- The polynomial 0x07 (00_scope.md R5). -/
def crcPoly : Byte := 0x07#8

/-- The CRC's initial value (00_scope.md R5). -/
def crcInit : Byte := 0x00#8

/-- One shift/XOR round, most significant bit first (R100). -/
def crcRound (c : Byte) : Byte := if c.msb then (c <<< 1) ^^^ crcPoly else c <<< 1

/-- `k` rounds. -/
def crcRounds : Nat → Byte → Byte
  | 0, c => c
  | k + 1, c => crcRounds k (crcRound c)

/-- `crc_step` (R100): XOR the input byte in, then eight rounds. -/
def crcStep (c b : Byte) : Byte := crcRounds 8 (c ^^^ b)

/-- The fold of `crc_step` over bytes in order, from a given accumulator. -/
def crcFold : Byte → List Byte → Byte
  | c, [] => c
  | c, b :: bs => crcFold (crcStep c b) bs

/-- `crc8` of a byte sequence (R101): the fold from the initial value, no final XOR. -/
def crc8 (bs : List Byte) : Byte := crcFold crcInit bs

/-- One bit of the bit-serial form (R102). -/
def crcSerialBit (c : Byte) (bit : Bool) : Byte :=
  if c.msb ^^ bit then (c <<< 1) ^^^ crcPoly else c <<< 1

/-- The bit-serial form over the low `k` bits of `b`, the highest of them first (R102). -/
def crcSerialBits (b : Byte) : Nat → Byte → Byte
  | 0, c => c
  | k + 1, c => crcSerialBits b k (crcSerialBit c (b.getLsbD k))

/-- The bit-serial byte update (R102). -/
def crcSerial (c b : Byte) : Byte := crcSerialBits b 8 c

end Sys2Proof.Machine
end

