-- ==== Sys2Proof/Machine/Flags.lean ====
section
/-! DEFINITION. The STATUS fields: their codes and the host's view of the register (10_state.md R25),
and the PEC comparison (41_pec.md R105). -/

namespace Sys2Proof.Machine

/-- RKIND after LIN11 (R28). -/
def rkindLin11 : BitVec 2 := 0b01#2

/-- RKIND after LIN16 (R28). -/
def rkindLin16 : BitVec 2 := 0b10#2

/-- RKIND's value that is never produced (R25). -/
def rkindReserved : BitVec 2 := 0b11#2

/-- CAUSE's value that is never produced (R25, 60_exceptions.md R131). -/
def causeReserved : BitVec 2 := 0b11#2

/-- The cause code of an illegal word (60_exceptions.md R131). -/
def causeCode : IllegalCause → BitVec 2
  | .unassignedOpcode => 1#2
  | .reservedNonzero => 2#2

/-- PECERR of a CRC_CHECK: does the received byte differ from the accumulator (41_pec.md R105)? -/
def pecMismatch (crc p : Byte) : Bool := !(crc == p)

/-- What a host read of STATUS returns (R25): bits 31:6 read zero. -/
def statusWord (b : Block) : Word :=
  (0#26 ++ b.cause ++ b.rkind ++ BitVec.ofBool b.ill ++ BitVec.ofBool b.pecerr : BitVec 32)

/-- Does the block hold a STATUS value that no run produces (93_implementation_defined.md U7)? -/
def Block.holdsReservedStatus (b : Block) : Bool :=
  b.rkind == rkindReserved || b.cause == causeReserved

end Sys2Proof.Machine
end

