-- ==== Sys2Proof/Machine/Ops.lean ====
section
/-! DEFINITION. The named operations on the state: one write per register (00_scope.md R9's
`x[NAME] <- v`), the command-stream index, the error record of an illegal command, the host's reads,
the checks of a host access, reset and loss of power. -/

namespace Sys2Proof.Machine

/-! ### Register writes -/

/-- `x[CRC] <- v` (10_state.md R21). -/
def State.setCrc (s : State) (v : BitVec 8) : State := { s with block := { s.block with crc := v } }

/-- `x[MANT] <- v` (10_state.md R22). -/
def State.setMant (s : State) (v : BitVec 16) : State :=
  { s with block := { s.block with mant := v } }

/-- `x[EXP] <- v` (10_state.md R23). -/
def State.setExp (s : State) (v : BitVec 5) : State := { s with block := { s.block with exp := v } }

/-- `x[FVAL] <- v` (10_state.md R24). -/
def State.setFval (s : State) (v : BitVec 32) : State :=
  { s with block := { s.block with fval := v } }

/-- `x[STATUS.PECERR] <- v` (10_state.md R26). -/
def State.setPecerr (s : State) (v : Bool) : State :=
  { s with block := { s.block with pecerr := v } }

/-- `x[STATUS.ILL] <- v` (10_state.md R27). -/
def State.setIll (s : State) (v : Bool) : State := { s with block := { s.block with ill := v } }

/-- `x[STATUS.RKIND] <- v` (10_state.md R28). -/
def State.setRkind (s : State) (v : BitVec 2) : State :=
  { s with block := { s.block with rkind := v } }

/-- `x[STATUS.CAUSE] <- v` (10_state.md R29). -/
def State.setCause (s : State) (v : BitVec 2) : State :=
  { s with block := { s.block with cause := v } }

/-- `x[BADCMD] <- v` (10_state.md R30). -/
def State.setBadcmd (s : State) (v : BitVec 32) : State :=
  { s with block := { s.block with badcmd := v } }

/-- `ci <- ci + 1` (10_state.md R31). -/
def State.advanceCi (s : State) : State :=
  { s with block := { s.block with ci := s.block.ci + 1 } }

/-! ### The error record -/

/-- `raise IllegalCommand(cause, v)` (60_exceptions.md R134): the one shared operation by which an
illegal word is recorded.  There is no trap entry and no return from one (R139). -/
def State.raiseIllegal (s : State) (c : IllegalCause) (v : Word) : State :=
  ((s.setIll true).setCause (causeCode c)).setBadcmd v

/-! ### Decoder results -/

/-- The result registers of a decode, written in one step (40_linear.md R85, R86): the mantissa and
exponent as given, the value they denote, and which decoder ran. -/
def State.writeResult (s : State) (mant : BitVec 16) (exp : BitVec 5) (kind : BitVec 2) : State :=
  (((s.setMant mant).setExp exp).setFval (toBinary32 (sext mant) (sext exp))).setRkind kind

/-! ### Host reads -/

/-- What a supported host read at an offset returns (20_memory.md R41, R44). -/
def hostReadValue (off : Offset) (b : Block) : Word :=
  if off = 0x00#8 then 0x00000000#32
  else if off = 0x04#8 then statusWord b
  else if off = 0x08#8 then zext 32 b.crc
  else if off = 0x0C#8 then enc 32 (sext b.mant)
  else if off = 0x10#8 then enc 32 (sext b.exp)
  else if off = 0x14#8 then b.fval
  else if off = 0x18#8 then b.badcmd
  else 0x00000000#32

/-- The host keeps the value a read returned; the block is unchanged (R44). -/
def State.recordRead (s : State) (v : Word) : State := { s with reads := s.reads ++ [v] }

/-! ### The checks of an access -/

/-- Is the access 32 bits wide at a multiple of 4 (20_memory.md R42)? -/
def Access.supported : Access → Bool
  | .memRead off n => n == 4 && off.toNat % 4 == 0
  | .memWrite off n _ => n == 4 && off.toNat % 4 == 0

/-- Is the host the one the block serves, or the first to access it (60_exceptions.md R142)? -/
def State.admitsHost (s : State) (host : Nat) : Bool :=
  s.boundHost == none || s.boundHost == some host

/-- The block serves this host from now on (60_exceptions.md R142; log entry 6). -/
def State.bindHost (s : State) (host : Nat) : State := { s with boundHost := some host }

/-- The number of the host whose access is admitted now: the bound one, else number 0. -/
def State.currentHost (s : State) : Nat := s.boundHost.getD 0

/-! ### The host address map -/

/-- The host address of a register offset (20_memory.md R40), for a given HOST_BASE. -/
def hostAddress (base : Nat) (off : Offset) : Nat := base + off.toNat

/-- The register offset a host address selects, for a given HOST_BASE: none outside the 256 bytes. -/
def offsetOfAddress (base addr : Nat) : Option Offset :=
  if base ≤ addr ∧ addr < base + 256 then some (BitVec.ofNat 8 (addr - base)) else none

/-! ### Reset, loss of power, the event queue -/

/-- Reset: every register at its reset value, in one step (70_reset_and_hazards.md R150). -/
def State.resetBlock (s : State) : State := { s with block := Block.reset }

/-- The `k`-th free value from here on. -/
def State.freeWordAt (s : State) (k : Nat) : Word := Config.freeWord (s.freeCount + k)

/-- A loss of power without a reset (60_exceptions.md R144): every register holds any value (U5), each
its own free value.  `ci` is no register and counts on (R31; log entry 9). -/
def State.losePower (s : State) : State :=
  { s with
    block :=
      { crc := (s.freeWordAt 0).setWidth 8
        mant := (s.freeWordAt 1).setWidth 16
        exp := (s.freeWordAt 2).setWidth 5
        fval := s.freeWordAt 3
        pecerr := (s.freeWordAt 4).getLsbD 0
        ill := (s.freeWordAt 5).getLsbD 0
        rkind := (s.freeWordAt 6).setWidth 2
        cause := (s.freeWordAt 7).setWidth 2
        badcmd := s.freeWordAt 8
        ci := s.block.ci }
    freeCount := s.freeCount + 9 }

/-- The next event and the state without it; none when there is no event to come. -/
def State.takeEvent (s : State) : Option (Event × State) :=
  match s.pending with
  | [] => none
  | e :: rest => some (e, { s with pending := rest })

/-- The state with a write of a command word to CMD as its next event. -/
def State.placeCommand (s : State) (v : Word) : State :=
  { s with pending := .access s.currentHost (.memWrite 0x00#8 4 v) :: s.pending }

end Sys2Proof.Machine
end

