-- ==== Sys2Proof/Machine/Control.lean ====
section
/-! DEFINITION. The control commands NOP and STAT_CLR (42_control.md). -/

namespace Sys2Proof.Machine

/-- NOP (R120): no state change. -/
def execNop (s : State) : Host.Outcome State Fault Refusal := .next s

/-- STAT_CLR (R121): clear PECERR, ILL, CAUSE and BADCMD; RKIND, CRC and the results stay. -/
def execStatClr (s : State) : Host.Outcome State Fault Refusal :=
  .next ((((s.setPecerr false).setIll false).setCause 0b00#2).setBadcmd 0x00000000#32)

end Sys2Proof.Machine
end

