-- ==== Sys2Proof/Machine/Linear.lean ====
section
/-! DEFINITION. The linear decoders LIN11 and LIN16 (40_linear.md). -/

namespace Sys2Proof.Machine

/-- LIN11 (R85): the mantissa sign-extended from 11 to 16 bits, the exponent field as given. -/
def execLin11 (w : Half) (s : State) : Host.Outcome State Fault Refusal :=
  .next (s.writeResult (enc 16 (sext (lin11Mantissa w))) (lin11Exponent w) rkindLin11)

/-- LIN16 (R86): the raw word as mantissa, B's bits 4:0 as exponent field. -/
def execLin16 (b : Byte) (w : Half) (s : State) : Host.Outcome State Fault Refusal :=
  .next (s.writeResult w (lin16Exponent b) rkindLin16)

end Sys2Proof.Machine
end

