-- ==== Sys2Proof/Machine/Pec.lean ====
section
/-! DEFINITION. The PEC engine's commands CRC_CLR, CRC_BYTE and CRC_CHECK (41_pec.md). -/

namespace Sys2Proof.Machine

/-- CRC_CLR (R103): the accumulator at the initial value. -/
def execCrcClr (s : State) : Host.Outcome State Fault Refusal := .next (s.setCrc crcInit)

/-- CRC_BYTE (R104): fold one byte into the accumulator. -/
def execCrcByte (b : Byte) (s : State) : Host.Outcome State Fault Refusal :=
  .next (s.setCrc (crcStep s.block.crc b))

/-- CRC_CHECK (R105): record whether the received byte differs; the accumulator stays. -/
def execCrcCheck (p : Byte) (s : State) : Host.Outcome State Fault Refusal :=
  .next (s.setPecerr (pecMismatch s.block.crc p))

end Sys2Proof.Machine
end

