-- ==== Sys2Proof/Machine/Dispatch.lean ====
section
/-! DEFINITION. One arm per command of the opcode table. -/

namespace Sys2Proof.Machine

/-- The effect of a command (30_encoding.md R63: "run the rule of op"). -/
def exec (i : Instr) (s : State) : Host.Outcome State Fault Refusal :=
  match i with
  | .nop => Sys2Proof.Machine.execNop s
  | .crcClr => Sys2Proof.Machine.execCrcClr s
  | .crcByte b => Sys2Proof.Machine.execCrcByte b s
  | .crcCheck p => Sys2Proof.Machine.execCrcCheck p s
  | .lin11 w => Sys2Proof.Machine.execLin11 w s
  | .lin16 b w => Sys2Proof.Machine.execLin16 b w s
  | .statClr => Sys2Proof.Machine.execStatClr s

end Sys2Proof.Machine
end

