-- ==== Sys2Proof/Machine/Access.lean ====
section
/-! DEFINITION. What an event does: a host access with its checks (20_memory.md R42, R54), the run of a
command word (30_encoding.md R63, 20_memory.md R45), reset (70_reset_and_hazards.md R150) and loss of
power (60_exceptions.md R144). -/

namespace Sys2Proof.Machine

/-- `execute(v)` (30_encoding.md R63): the command the word selects, or the error record. -/
def executeWord (v : Word) (s : State) : Host.Outcome State Fault Refusal :=
  match decode v with
  | .command i => exec i s
  | .illegal c => .next (s.raiseIllegal c v)

/-- A write of a word to CMD (20_memory.md R45): run it, then advance `ci`, legal or not. -/
def commandWrite (v : Word) (s : State) : Host.Outcome State Fault Refusal :=
  match executeWord v s with
  | .next t => .next t.advanceCi
  | .fault r => .fault r
  | .refused r => .refused r

/-- A supported access (20_memory.md R44, R45): a read returns the register's value and changes
nothing of the block; a write runs a command at CMD and is ignored at every other offset. -/
def performAccess (a : Access) (s : State) : Host.Outcome State Fault Refusal :=
  match a with
  | .memRead off _ => .next (s.recordRead (hostReadValue off s.block))
  | .memWrite off _ v => if off = 0x00#8 then commandWrite v s else .next s

/-- A host's access: one host only (R54), 32 bits at a multiple of 4 only (R42), and no state that
names a never-produced STATUS value (U7). -/
def handleAccess (host : Nat) (a : Access) (s : State) : Host.Outcome State Fault Refusal :=
  if s.admitsHost host = false then .refused .secondHost
  else if a.supported = false then .refused .unsupportedAccess
  else if s.block.holdsReservedStatus then .refused .reservedLaunchState
  else performAccess a (s.bindHost host)

/-- What an event does to the state it is taken from. -/
def handleEvent (e : Event) (s : State) : Host.Outcome State Fault Refusal :=
  match e with
  | .access host a => handleAccess host a s
  | .reset => .next s.resetBlock
  | .resetDuring _ _ => .refused .resetDuringAccess
  | .powerLoss => .next s.losePower

end Sys2Proof.Machine
end

