-- ==== Sys2Proof/Machine/Step.lean ====
section
/-! DEFINITION. One step: the next event happens; with none to come the block stays as it is
(00_scope.md R10: "The block never starts a step by itself"; log entry 2). -/

namespace Sys2Proof.Machine

/-- One step of the machine. -/
def step (s : State) : Host.Outcome State Fault Refusal :=
  match s.takeEvent with
  | none => .next s
  | some (e, t) => handleEvent e t

/-- The state whose next step runs the word the opcode table numbers: a write of it to CMD by the
block's host, before every other event to come (log entry 3). -/
def State.withFetchWord (s : State) (nbits w : Nat) : State := s.placeCommand (tableWord nbits w)

end Sys2Proof.Machine
end

