-- ==== Sys2Proof/Machine/Assembler.lean ====
section
/-! DEFINITION. The assembler and disassembler of the spec (30_encoding.md R68, R69). -/

namespace Sys2Proof.Machine

/-- The word of a core line, by the table of R68. -/
def lineWord : CoreLine → Word
  | .nop => 0x00000000#32
  | .crcClr => 0x01000000#32
  | .crcByte b => 0x02000000#32 ||| (BitVec.ofNat 32 b <<< 16)
  | .crcCheck p => 0x03000000#32 ||| (BitVec.ofNat 32 p <<< 16)
  | .lin11 w => 0x10000000#32 ||| BitVec.ofNat 32 w
  | .lin16 w ef => 0x11000000#32 ||| (BitVec.ofNat 32 ef <<< 16) ||| BitVec.ofNat 32 w
  | .statClr => 0x20000000#32
  | .word v => BitVec.ofNat 32 v

/-- The core lines a line expands to (R69). -/
def expandLine : AsmLine → List CoreLine
  | .core l => [l]
  | .lin11Bytes lsb msb => [.lin11 ((msb <<< 8) ||| lsb)]
  | .lin16Exp w e => [.lin16 w (enc 5 e).toNat]
  | .pecAddrWrite a => [.crcByte ((a <<< 1) ||| 0)]
  | .pecAddrRead a => [.crcByte ((a <<< 1) ||| 1)]
  | .crcSeq bs => .crcClr :: bs.map .crcByte
  | .pecWriteFrame a c payload =>
      .crcClr :: .crcByte ((a <<< 1) ||| 0) :: .crcByte c :: payload.map .crcByte
  | .pecReadCommand a c => [.crcClr, .crcByte ((a <<< 1) ||| 0), .crcByte c]
  | .pecReadFrame a c received p =>
      .crcClr :: .crcByte ((a <<< 1) ||| 0) :: .crcByte c :: .crcByte ((a <<< 1) ||| 1) ::
        (received.map .crcByte ++ [.crcCheck p])

/-- The words of a line, or nothing where an operand is out of range (R68: the assembler rejects it). -/
def assemble (l : AsmLine) : Option (List Word) :=
  if l.wellFormed then some ((expandLine l).map lineWord) else none

/-- The line of a command (R68). -/
def lineOf : Instr → CoreLine
  | .nop => .nop
  | .crcClr => .crcClr
  | .crcByte b => .crcByte b.toNat
  | .crcCheck p => .crcCheck p.toNat
  | .lin11 w => .lin11 w.toNat
  | .lin16 b w => .lin16 w.toNat b.toNat
  | .statClr => .statClr

/-- The disassembler (R68): a word that selects no command is printed as `.word`. -/
def disassemble (v : Word) : CoreLine :=
  match decode v with
  | .command i => lineOf i
  | .illegal _ => .word v.toNat

end Sys2Proof.Machine
end

