-- ==== Sys2Proof/Safety.lean ====
section
/-! DEFINITION. The terms claims use: the exact value of a decode (40_linear.md R83), the invariant of
the block, what is neither host write nor reset, and runs of command words and of host events
(70_reset_and_hazards.md R158, R159). -/

namespace Sys2Proof.Machine

/-! ### Values -/

/-- The exact rational a mantissa and an exponent denote, `M × 2^E` (R83). -/
def linearValue (m e : Int) : ℚ := (m : ℚ) * (2 : ℚ) ^ e

/-- The biased exponent of a binary32 word, bits 30:23 (R84, 93_implementation_defined.md G5). -/
def biasedExponent (w : Word) : Nat := (w.extractLsb' 23 8).toNat

/-- The fraction bits of a binary32 word, bits 22:0 (R84, G5). -/
def fractionBits (w : Word) : Nat := (w.extractLsb' 0 23).toNat

/-- The rational a finite binary32 word denotes (G5); an infinity or a NaN (biased exponent 255) has
none, and no claim asks for it. -/
def binary32Value (w : Word) : ℚ :=
  let magnitude : ℚ :=
    if biasedExponent w = 0 then (fractionBits w : ℚ) * (2 : ℚ) ^ (-149 : Int)
    else ((2 ^ 23 + fractionBits w : Nat) : ℚ) * (2 : ℚ) ^ ((biasedExponent w : Int) - 150)
  if w.msb then -magnitude else magnitude

/-- A normal binary32 word: neither zero, subnormal, infinity nor NaN. -/
def isNormal32 (w : Word) : Prop := 0 < biasedExponent w ∧ biasedExponent w < 255

/-! ### The invariant -/

/-- What every run from a legal launch state keeps of the block. -/
structure Block.Inv (b : Block) : Prop where
  /-- FVAL is the value of MANT and EXP (10_state.md R24). -/
  value : b.fval = toBinary32 (sext b.mant) (sext b.exp)
  /-- RKIND is one of the three produced values (10_state.md R25). -/
  kind : b.rkind ≠ rkindReserved
  /-- RKIND = 0 says that no decode has happened (10_state.md R28). -/
  fresh : b.rkind = 0b00#2 → b.mant = 0#16 ∧ b.exp = 0#5
  /-- A linear11 mantissa is in −1024..1023 (10_state.md R22). -/
  range : b.rkind = rkindLin11 → -1024 ≤ sext b.mant ∧ sext b.mant ≤ 1023
  /-- With ILL set, BADCMD is an illegal word and CAUSE its cause (10_state.md R29, R30). -/
  record : b.ill = true → ∃ c, decode b.badcmd = .illegal c ∧ b.cause = causeCode c
  /-- With ILL clear there is no record (10_state.md R29, R30). -/
  clear : b.ill = false → b.cause = 0b00#2 ∧ b.badcmd = 0x00000000#32

/-- The invariant of the machine: the block's, and no loss of power among the events to come (after
one, nothing is known of any register: log entry 9). -/
structure State.Inv (s : State) : Prop where
  block : s.block.Inv
  powered : Event.powerLoss ∉ s.pending

/-- "No error recorded" (R159). -/
def State.noErrorRecorded (s : State) : Prop := s.block.ill = false

/-! ### Events -/

/-- The command word an event writes to CMD, if it does (20_memory.md R45). -/
def Event.commandWord? : Event → Option Word
  | .access _ (.memWrite off _ v) => if off = 0x00#8 then some v else none
  | .access _ (.memRead _ _) => none
  | .reset => none
  | .resetDuring _ _ => none
  | .powerLoss => none

/-- The next event is a write of this command word to CMD. -/
def State.commandPending (s : State) (v : Word) : Prop :=
  ∃ e rest, s.pending = e :: rest ∧ e.commandWord? = some v

/-- The next event is a reset or a loss of power. -/
def State.upheavalPending (s : State) : Prop :=
  ∃ e rest, s.pending = e :: rest ∧ (e = .reset ∨ e = .powerLoss)

/-- An access the block runs: from its host, supported, in a block whose STATUS values are produced. -/
def State.admits (s : State) (host : Nat) (a : Access) : Prop :=
  (s.boundHost = none ∨ s.boundHost = some host) ∧ a.supported = true ∧
    s.block.rkind ≠ rkindReserved ∧ s.block.cause ≠ causeReserved

/-! ### Runs -/

/-- Command words written to CMD one after another (10_state.md R31). -/
def runWords : List Word → State → Host.Outcome State Fault Refusal
  | [], s => .next s
  | v :: vs, s =>
    match commandWrite v s with
    | .next t => runWords vs t
    | .fault r => .fault r
    | .refused r => .refused r

/-- A run: events applied in order to a launch state, stuck at the first refusal (R158). -/
def runEvents : List Event → State → Host.Outcome State Fault Refusal
  | [], s => .next s
  | e :: es, s =>
    match handleEvent e s with
    | .next t => runEvents es t
    | .fault r => .fault r
    | .refused r => .refused r

/-- The byte a word folds into the CRC, if it is a legal CRC_BYTE (41_pec.md R104). -/
def foldedByte? (v : Word) : Option Byte :=
  match decode v with
  | .command (.crcByte b) => some b
  | _ => none

end Sys2Proof.Machine
end

