-- ==== Sys2Proof/Certificates/Slice0/Obligations.lean ====
section
/-! DEFINITION. The statements about the block, each from a rule of spec/.  A field of a command word
is written as the slice of the word that the rule names, not with the model's own accessor. -/

open Sys2Proof Sys2Proof.Machine

/-! ### Reset and the invariant -/

/-- 70_reset_and_hazards.md, the state right after reset: every register has the value listed there,
whatever the state before the reset, and every host read returns zero.  That the event queue, the host's
reads, the bound host and the free-value counter stay is the model's own choice (log entry 10). -/
def Obligations.ResetSetsEveryRegister : Prop :=
  (∀ s rest, s.pending = .reset :: rest →
    step s = .next { s with
      block :=
        { crc := 0x00#8, mant := 0x0000#16, exp := 0#5, fval := 0x00000000#32, pecerr := false,
          ill := false, rkind := 0#2, cause := 0#2, badcmd := 0x00000000#32, ci := 0 }
      pending := rest }) ∧
  State.reset.block =
    { crc := 0x00#8, mant := 0x0000#16, exp := 0#5, fval := 0x00000000#32, pecerr := false,
      ill := false, rkind := 0#2, cause := 0#2, badcmd := 0x00000000#32, ci := 0 } ∧
  ∀ off : Offset, hostReadValue off State.reset.block = 0x00000000#32

/-- The reset state meets the invariant `State.Inv` (10_state.md sections 3 and 4). -/
def Obligations.ResetStateMeetsInv : Prop := State.reset.Inv

/-- Every step keeps the invariant: FVAL is the value of MANT and EXP, RKIND and CAUSE are produced
values, a zero RKIND says no decode has happened, a LIN11 mantissa is in −1024..1023, and ILL, CAUSE and
BADCMD are one consistent record of an illegal word or no record at all. -/
def Obligations.StepKeepsInv : Prop :=
  ∀ s t : State, s.Inv → step s = .next t → t.Inv

/-! ### Encoding -/

/-- Decoding the word of a command gives the command back, every operand at every value.  LIN16's operand
is the whole byte B, bits 7:5 among it, by the model's choice (log entry 12). -/
def Obligations.DecodeOfEncode : Prop := ∀ i : Instr, decode (encode i) = .command i

/-- A word that decodes to a command is that command's word: no bit of a legal word is dropped.  For a LIN16
word with a bit of B[7:5] set this holds because the model's constructor carries the whole byte B, its own
choice (log entry 12); the meaning ignores those bits. -/
def Obligations.EncodeOfDecode : Prop :=
  ∀ (v : Word) (i : Instr), decode v = .command i → encode i = v

/-- 30_encoding.md section 4, decode is total: a word is a command exactly when a row of the opcode map
selects it, and no word is selected by two rows (the spec's sentence "No word selects two commands"). -/
def Obligations.DecodeSelectsOneRow : Prop :=
  ∀ v : Word,
    ((∃ i, decode v = .command i) ↔ ∃ r ∈ commandTable, v &&& r.mask = r.pattern) ∧
    ∀ r ∈ commandTable, ∀ r' ∈ commandTable,
      v &&& r.mask = r.pattern → v &&& r'.mask = r'.pattern → r = r'

/-- Words written out from the opcode map decode to the commands they stand for. -/
def Obligations.SampleWordsDecode : Prop :=
  decode 0x00000000#32 = .command .nop ∧
  decode 0x01000000#32 = .command .crcClr ∧
  decode 0x02310000#32 = .command (.crcByte 0x31#8) ∧
  decode 0x039F0000#32 = .command (.crcCheck 0x9F#8) ∧
  decode 0x1000EF9C#32 = .command (.lin11 0xEF9C#16) ∧
  decode 0x11F70200#32 = .command (.lin16 0xF7#8 0x0200#16) ∧
  decode 0x20000000#32 = .command .statClr ∧
  decode 0x12000000#32 = .illegal .unassignedOpcode ∧
  decode 0x02320001#32 = .illegal .reservedNonzero

/-- R132 and R133: which words are illegal, and with which cause. -/
def Obligations.IllegalWordsAndCauses : Prop :=
  ∀ v : Word,
    (decode v = .illegal .unassignedOpcode ↔
      v.extractLsb' 24 8 ∉ [0x00#8, 0x01#8, 0x02#8, 0x03#8, 0x10#8, 0x11#8, 0x20#8]) ∧
    (decode v = .illegal .reservedNonzero ↔
      (v.extractLsb' 24 8 ∈ [0x00#8, 0x01#8, 0x20#8] ∧ v.extractLsb' 0 24 ≠ 0#24) ∨
      (v.extractLsb' 24 8 ∈ [0x02#8, 0x03#8] ∧ v.extractLsb' 0 16 ≠ 0#16) ∨
      (v.extractLsb' 24 8 = 0x10#8 ∧ v.extractLsb' 16 8 ≠ 0#8))

/-- The bits 23:21 of a LIN16 word are ignored: clearing them changes nothing but what is read as the
word. -/
def Obligations.Lin16IgnoresModeBits : Prop :=
  ∀ (v : Word) (s : State), v.extractLsb' 24 8 = 0x11#8 →
    commandWrite (v &&& 0xFF1FFFFF#32) s = commandWrite v s

/-- The disassembler's line assembles to the word it was read from, for all words, legal or illegal;
a command's line is in range and its word is the command's. -/
def Obligations.AssembleOfDisassemble : Prop :=
  (∀ v : Word, assemble (.core (disassemble v)) = some [v]) ∧
  ∀ i : Instr, (lineOf i).wellFormed = true ∧ lineWord (lineOf i) = encode i

/-- 30_encoding.md section 4, `lin11.b`, `lin16.e`, `pec.aw`, `pec.ar` and `crc.seq`: `lin11.b` puts the
bytes low byte first, `lin16.e` encodes the signed exponent in two's complement, `pec.aw` and `pec.ar`
build the address bytes with bit 0 for the direction, `crc.seq` is a CRC_CLR and one CRC_BYTE for each
byte; each line is rejected exactly where an operand is out of its range.  That an empty `crc.seq` is
accepted is the model's choice (log entry 13). -/
def Obligations.PseudoLinesAssemble : Prop :=
  (∀ lsb msb : Byte,
    assemble (.lin11Bytes lsb.toNat msb.toNat) = some [encode (.lin11 (msb ++ lsb))]) ∧
  (∀ lsb msb : Nat, assemble (.lin11Bytes lsb msb) = none ↔ 256 ≤ lsb ∨ 256 ≤ msb) ∧
  (∀ (w : Half) (e : Int), -16 ≤ e → e ≤ 15 →
    ∃ b : Byte, assemble (.lin16Exp w.toNat e) = some [encode (.lin16 b w)] ∧
      (b.extractLsb' 0 5).toInt = e ∧ b.extractLsb' 5 3 = 0#3) ∧
  (∀ (w : Nat) (e : Int), assemble (.lin16Exp w e) = none ↔ 65536 ≤ w ∨ e ≤ -17 ∨ 16 ≤ e) ∧
  (∀ a : BitVec 7,
    assemble (.pecAddrWrite a.toNat) = some [encode (.crcByte (a ++ 0#1))] ∧
    assemble (.pecAddrRead a.toNat) = some [encode (.crcByte (a ++ 1#1))]) ∧
  (∀ a : Nat,
    (assemble (.pecAddrWrite a) = none ↔ 128 ≤ a) ∧
    (assemble (.pecAddrRead a) = none ↔ 128 ≤ a)) ∧
  (∀ bs : List Byte, assemble (.crcSeq (bs.map BitVec.toNat)) =
    some (encode .crcClr :: bs.map (fun b => encode (.crcByte b)))) ∧
  ∀ bs : List Nat, assemble (.crcSeq bs) = none ↔ ∃ b ∈ bs, 256 ≤ b

/-- 30_encoding.md section 4: a core line and a PEC frame line are rejected exactly where an operand is
out of its range.  The ranges of the command, payload and PEC bytes of a frame line are those of the
lines it expands to (log entry 13). -/
def Obligations.CoreAndFrameLinesRejectOutOfRange : Prop :=
  (∀ b : Nat, assemble (.core (.crcByte b)) = none ↔ 256 ≤ b) ∧
  (∀ p : Nat, assemble (.core (.crcCheck p)) = none ↔ 256 ≤ p) ∧
  (∀ w : Nat, assemble (.core (.lin11 w)) = none ↔ 65536 ≤ w) ∧
  (∀ w ef : Nat, assemble (.core (.lin16 w ef)) = none ↔ 65536 ≤ w ∨ 256 ≤ ef) ∧
  (∀ v : Nat, assemble (.core (.word v)) = none ↔ 4294967296 ≤ v) ∧
  (∀ (a c : Nat) (payload : List Nat), assemble (.pecWriteFrame a c payload) = none ↔
    128 ≤ a ∨ 256 ≤ c ∨ ∃ p ∈ payload, 256 ≤ p) ∧
  (∀ a c : Nat, assemble (.pecReadCommand a c) = none ↔ 128 ≤ a ∨ 256 ≤ c) ∧
  ∀ (a c : Nat) (received : List Nat) (p : Nat), assemble (.pecReadFrame a c received p) = none ↔
    128 ≤ a ∨ 256 ≤ c ∨ (∃ d ∈ received, 256 ≤ d) ∨ 256 ≤ p

/-! ### The commands -/

/-- R120, NOP: no state change besides `ci`; a word with opcode 0x00 and a non-zero reserved field is
illegal, cause 2. -/
def Obligations.NopLeavesTheState : Prop :=
  (∀ s : State, exec .nop s = .next s) ∧
  assemble (.core .nop) = some [0x00000000#32] ∧
  (∀ s : State, commandWrite 0x00000000#32 s =
    .next { s with block := { s.block with ci := s.block.ci + 1 } }) ∧
  ∀ (v : Word) (s : State), v.extractLsb' 24 8 = 0x00#8 →
    v.extractLsb' 16 8 ≠ 0#8 ∨ v.extractLsb' 0 16 ≠ 0#16 →
    commandWrite v s = .next { s with block := { s.block with
      ill := true, cause := 2#2, badcmd := v, ci := s.block.ci + 1 } }

/-- R103, CRC_CLR: CRC is 0x00 and nothing else changes; with a non-zero reserved field the word is
illegal, cause 2, and CRC is unchanged. -/
def Obligations.CrcClrClearsTheAccumulator : Prop :=
  (∀ s : State, exec .crcClr s = .next { s with block := { s.block with crc := 0x00#8 } }) ∧
  assemble (.core .crcClr) = some [0x01000000#32] ∧
  (∀ s : State, commandWrite 0x01000000#32 s =
    .next { s with block := { s.block with crc := 0x00#8, ci := s.block.ci + 1 } }) ∧
  ∀ (v : Word) (s : State), v.extractLsb' 24 8 = 0x01#8 →
    v.extractLsb' 16 8 ≠ 0#8 ∨ v.extractLsb' 0 16 ≠ 0#16 →
    commandWrite v s = .next { s with block := { s.block with
      ill := true, cause := 2#2, badcmd := v, ci := s.block.ci + 1 } }

/-- R104, CRC_BYTE: CRC becomes `crc_step` of CRC and the byte, and nothing else changes; with W ≠ 0
the word is illegal, cause 2, and the byte is not folded in; and the rule's corner cases. -/
def Obligations.CrcByteFoldsOneByte : Prop :=
  (∀ (b : Byte) (s : State), exec (.crcByte b) s =
    .next { s with block := { s.block with crc := crcStep s.block.crc b } }) ∧
  (∀ b : Byte, assemble (.core (.crcByte b.toNat)) = some [0x02#8 ++ b ++ 0x0000#16]) ∧
  (∀ (v : Word) (s : State), v.extractLsb' 24 8 = 0x02#8 → v.extractLsb' 0 16 = 0#16 →
    commandWrite v s = .next { s with block := { s.block with
      crc := crcStep s.block.crc (v.extractLsb' 16 8), ci := s.block.ci + 1 } }) ∧
  (∀ (v : Word) (s : State), v.extractLsb' 24 8 = 0x02#8 → v.extractLsb' 0 16 ≠ 0#16 →
    commandWrite v s = .next { s with block := { s.block with
      ill := true, cause := 2#2, badcmd := v, ci := s.block.ci + 1 } }) ∧
  (∀ c : Byte, crcStep c c = 0x00#8) ∧
  crcStep 0x00#8 0x00#8 = 0x00#8 ∧ crcStep 0x00#8 0x01#8 = 0x07#8 ∧
  crcStep 0x00#8 0xFF#8 = 0xF3#8 ∧ crcStep 0x00#8 0x80#8 = 0x89#8

/-- R105, CRC_CHECK: PECERR is 0 where CRC equals the byte and 1 where it does not, CRC is not changed,
nothing else changes; with W ≠ 0 the word is illegal, cause 2, and PECERR is unchanged. -/
def Obligations.CrcCheckComparesOnly : Prop :=
  (∀ (p : Byte) (s : State), s.block.crc = p →
    exec (.crcCheck p) s = .next { s with block := { s.block with pecerr := false } }) ∧
  (∀ (p : Byte) (s : State), s.block.crc ≠ p →
    exec (.crcCheck p) s = .next { s with block := { s.block with pecerr := true } }) ∧
  (∀ p : Byte, assemble (.core (.crcCheck p.toNat)) = some [0x03#8 ++ p ++ 0x0000#16]) ∧
  (∀ (v : Word) (s : State), v.extractLsb' 24 8 = 0x03#8 → v.extractLsb' 0 16 = 0#16 →
    commandWrite v s = .next { s with block := { s.block with
      pecerr := decide (s.block.crc ≠ v.extractLsb' 16 8), ci := s.block.ci + 1 } }) ∧
  ∀ (v : Word) (s : State), v.extractLsb' 24 8 = 0x03#8 → v.extractLsb' 0 16 ≠ 0#16 →
    commandWrite v s = .next { s with block := { s.block with
      ill := true, cause := 2#2, badcmd := v, ci := s.block.ci + 1 } }

/-- R85, LIN11: MANT is the mantissa field sign-extended from 11 to 16 bits, EXP the exponent field,
FVAL their value, RKIND 0b01, and nothing else changes; with B ≠ 0 the word is illegal, cause 2; and the
rule's worked example. -/
def Obligations.Lin11DecodesTheWord : Prop :=
  (∀ (w : Half) (s : State), exec (.lin11 w) s = .next { s with block := { s.block with
    mant := (w.extractLsb' 0 11).signExtend 16
    exp := w.extractLsb' 11 5
    fval := toBinary32 (w.extractLsb' 0 11).toInt (w.extractLsb' 11 5).toInt
    rkind := 0b01#2 } }) ∧
  (∀ w : Half, assemble (.core (.lin11 w.toNat)) = some [0x10#8 ++ 0x00#8 ++ w]) ∧
  (∀ (v : Word) (s : State), v.extractLsb' 24 8 = 0x10#8 → v.extractLsb' 16 8 = 0#8 →
    commandWrite v s = .next { s with block := { s.block with
      mant := (v.extractLsb' 0 11).signExtend 16
      exp := v.extractLsb' 11 5
      fval := toBinary32 (v.extractLsb' 0 11).toInt (v.extractLsb' 11 5).toInt
      rkind := 0b01#2
      ci := s.block.ci + 1 } }) ∧
  (∀ (v : Word) (s : State), v.extractLsb' 24 8 = 0x10#8 → v.extractLsb' 16 8 ≠ 0#8 →
    commandWrite v s = .next { s with block := { s.block with
      ill := true, cause := 2#2, badcmd := v, ci := s.block.ci + 1 } }) ∧
  ∀ s : State, commandWrite 0x1000EF9C#32 s = .next { s with block := { s.block with
    mant := 0xFF9C#16, exp := 0b11101#5, fval := 0xC1480000#32, rkind := 0b01#2,
    ci := s.block.ci + 1 } }

/-- R86, LIN16: MANT is the raw word, EXP bits 4:0 of B, FVAL their value, RKIND 0b10, and nothing else
changes; every word with opcode 0x11 is legal; and the rule's worked example. -/
def Obligations.Lin16DecodesTheWord : Prop :=
  (∀ (b : Byte) (w : Half) (s : State), exec (.lin16 b w) s = .next { s with block := { s.block with
    mant := w
    exp := b.extractLsb' 0 5
    fval := toBinary32 w.toInt (b.extractLsb' 0 5).toInt
    rkind := 0b10#2 } }) ∧
  (∀ (b : Byte) (w : Half),
    assemble (.core (.lin16 w.toNat b.toNat)) = some [0x11#8 ++ b ++ w]) ∧
  (∀ (v : Word) (s : State), v.extractLsb' 24 8 = 0x11#8 →
    commandWrite v s = .next { s with block := { s.block with
      mant := v.extractLsb' 0 16
      exp := v.extractLsb' 16 5
      fval := toBinary32 (v.extractLsb' 0 16).toInt (v.extractLsb' 16 5).toInt
      rkind := 0b10#2
      ci := s.block.ci + 1 } }) ∧
  ∀ s : State, commandWrite 0x111DFFFF#32 s = .next { s with block := { s.block with
    mant := 0xFFFF#16, exp := 0b11101#5, fval := 0xBE000000#32, rkind := 0b10#2,
    ci := s.block.ci + 1 } }

/-- R121, STAT_CLR: PECERR, ILL, CAUSE and BADCMD are cleared and nothing else changes; with a non-zero
reserved field the word is illegal, cause 2, and the record is that word's. -/
def Obligations.StatClrClearsTheRecord : Prop :=
  (∀ s : State, exec .statClr s = .next { s with block := { s.block with
    pecerr := false, ill := false, cause := 0#2, badcmd := 0x00000000#32 } }) ∧
  assemble (.core .statClr) = some [0x20000000#32] ∧
  (∀ s : State, commandWrite 0x20000000#32 s = .next { s with block := { s.block with
    pecerr := false, ill := false, cause := 0#2, badcmd := 0x00000000#32,
    ci := s.block.ci + 1 } }) ∧
  ∀ (v : Word) (s : State), v.extractLsb' 24 8 = 0x20#8 →
    v.extractLsb' 16 8 ≠ 0#8 ∨ v.extractLsb' 0 16 ≠ 0#16 →
    commandWrite v s = .next { s with block := { s.block with
      ill := true, cause := 2#2, badcmd := v, ci := s.block.ci + 1 } }

/-- R134, the error record: an illegal word writes ILL, CAUSE and BADCMD, `ci` advances, and no part of
any command's effect is visible. -/
def Obligations.IllegalWordWritesTheRecord : Prop :=
  ∀ (v : Word) (c : IllegalCause) (s : State), decode v = .illegal c →
    commandWrite v s = .next { s with block := { s.block with
      ill := true
      cause := if c = .unassignedOpcode then 1#2 else 2#2
      badcmd := v
      ci := s.block.ci + 1 } }

/-- 10_state.md section 6, the write table: what each command word does to each register, `ci` included,
and that the block never stops on a command word. -/
def Obligations.WriteTable : Prop :=
  ∀ (v : Word) (s : State), commandWrite v s = .next { s with block :=
    { crc := match decode v with
        | .command .crcClr => 0x00#8
        | .command (.crcByte b) => crcStep s.block.crc b
        | _ => s.block.crc
      mant := match decode v with
        | .command (.lin11 w) => (w.extractLsb' 0 11).signExtend 16
        | .command (.lin16 _ w) => w
        | _ => s.block.mant
      exp := match decode v with
        | .command (.lin11 w) => w.extractLsb' 11 5
        | .command (.lin16 b _) => b.extractLsb' 0 5
        | _ => s.block.exp
      fval := match decode v with
        | .command (.lin11 w) => toBinary32 (w.extractLsb' 0 11).toInt (w.extractLsb' 11 5).toInt
        | .command (.lin16 b w) => toBinary32 w.toInt (b.extractLsb' 0 5).toInt
        | _ => s.block.fval
      pecerr := match decode v with
        | .command (.crcCheck p) => decide (s.block.crc ≠ p)
        | .command .statClr => false
        | _ => s.block.pecerr
      ill := match decode v with
        | .illegal _ => true
        | .command .statClr => false
        | _ => s.block.ill
      rkind := match decode v with
        | .command (.lin11 _) => 0b01#2
        | .command (.lin16 _ _) => 0b10#2
        | _ => s.block.rkind
      cause := match decode v with
        | .illegal .unassignedOpcode => 1#2
        | .illegal .reservedNonzero => 2#2
        | .command .statClr => 0#2
        | _ => s.block.cause
      badcmd := match decode v with
        | .illegal _ => v
        | .command .statClr => 0x00000000#32
        | _ => s.block.badcmd
      ci := s.block.ci + 1 } }

/-- The frame as the host sees it: after a command every register offset but those the command writes
reads as before. -/
def Obligations.CommandReadFrame : Prop :=
  ∀ (i : Instr) (s : State), ∃ t, exec i s = .next t ∧
    ∀ off : Offset,
      off ∉ (match i with
        | .nop => ([] : List Offset)
        | .crcClr => [0x08#8]
        | .crcByte _ => [0x08#8]
        | .crcCheck _ => [0x04#8]
        | .lin11 _ => [0x04#8, 0x0C#8, 0x10#8, 0x14#8]
        | .lin16 _ _ => [0x04#8, 0x0C#8, 0x10#8, 0x14#8]
        | .statClr => [0x04#8, 0x18#8]) →
      hostReadValue off t.block = hostReadValue off s.block

/-! ### The CRC -/

/-- R100 and R101: the byte update is eight rounds after the XOR with the input byte, each round a shift
with the polynomial 0x07 XORed in where bit 7 was set; `crc8` is its fold over the bytes in order from
0x00, without a final XOR, and is 0x00 for no bytes. -/
def Obligations.CrcIsEightRoundsPerByte : Prop :=
  (∀ c b : Byte, crcStep c b =
    (fun x : Byte => if x.getLsbD 7 = true then (x <<< 1) ^^^ 0x07#8 else x <<< 1)^[8] (c ^^^ b)) ∧
  (∀ bs : List Byte, crc8 bs = bs.foldl crcStep 0x00#8) ∧ crc8 [] = 0x00#8

/-- 41_pec.md, the bit-serial form: the byte update equals feeding the bits one at a time, most
significant first. -/
def Obligations.CrcStepIsBitSerial : Prop := ∀ c b : Byte, crcStep c b = crcSerial c b

/-- The byte update is linear and loses nothing: it is injective in the accumulator and in the byte. -/
def Obligations.CrcStepIsLinear : Prop :=
  (∀ c c' b b' : Byte, crcStep (c ^^^ c') (b ^^^ b') = crcStep c b ^^^ crcStep c' b') ∧
  (∀ c c' b : Byte, crcStep c b = crcStep c' b → c = c') ∧
  ∀ c b b' : Byte, crcStep c b = crcStep c b' → b = b'

/-- 41_pec.md section 4, residue: folding a sequence's CRC into itself leaves 0x00, and a CRC_CHECK of a
byte agrees with folding the byte in and testing for 0x00. -/
def Obligations.CrcResidueIsZero : Prop :=
  (∀ bs : List Byte, crc8 (bs ++ [crc8 bs]) = 0x00#8) ∧
  ∀ (p : Byte) (s : State), ∃ t u, exec (.crcCheck p) s = .next t ∧ exec (.crcByte p) s = .next u ∧
    (t.block.pecerr = false ↔ u.block.crc = 0x00#8)

/-- 41_pec.md section 4, single-bit errors: flipping one bit of one byte of a frame changes its CRC. -/
def Obligations.SingleBitErrorsDetected : Prop :=
  ∀ (front back : List Byte) (b : Byte) (k : Nat), k < 8 →
    crc8 (front ++ (b ^^^ (1#8 <<< k)) :: back) ≠ crc8 (front ++ b :: back)

/-- 10_state.md section 7 and 70_reset_and_hazards.md section 3: after CRC_CLR and any words other than
CRC_CLR, legal or illegal, CRC is `crc8` of the bytes the legal CRC_BYTEs among them carry. -/
def Obligations.CrcOfAWordStream : Prop :=
  ∀ (vs : List Word) (s : State), (∀ v ∈ vs, v ≠ 0x01000000#32) →
    ∃ t, runWords (0x01000000#32 :: vs) s = .next t ∧
      t.block.crc = crc8 (vs.filterMap foldedByte?) ∧ t.block.ci = s.block.ci + vs.length + 1

/-- R107, write-with-PEC: `pec.wframe` leaves `crc8` of the address byte, the command and the payload in
CRC, and the host reads it at 0x08. -/
def Obligations.WriteFramePec : Prop :=
  ∀ (a c : Nat) (payload : List Nat) (s : State), a < 128 → c < 256 → (∀ p ∈ payload, p < 256) →
    ∃ words pec, assemble (.pecWriteFrame a c payload) = some words ∧
      pec = crc8 (BitVec.ofNat 8 ((a <<< 1) ||| 0) :: BitVec.ofNat 8 c ::
        payload.map (BitVec.ofNat 8)) ∧
      runWords words s = .next { s with block := { s.block with
        crc := pec, ci := s.block.ci + payload.length + 3 } } ∧
      hostReadValue 0x08#8 { s.block with crc := pec } = pec.setWidth 32

/-- R108, read-with-PEC, write phase: `pec.rcmd` leaves `crc8` of the address byte and the command. -/
def Obligations.ReadCommandPec : Prop :=
  ∀ (a c : Nat) (s : State), a < 128 → c < 256 →
    ∃ words, assemble (.pecReadCommand a c) = some words ∧
      runWords words s = .next { s with block := { s.block with
        crc := crc8 [BitVec.ofNat 8 ((a <<< 1) ||| 0), BitVec.ofNat 8 c]
        ci := s.block.ci + 3 } }

/-- R109, read-with-PEC, read phase: `pec.rframe` sets PECERR exactly where the received trailing byte
differs from `crc8` of the frame, and does not fold the received byte in. -/
def Obligations.ReadFrameCheck : Prop :=
  ∀ (a c : Nat) (received : List Nat) (p : Nat) (s : State),
    a < 128 → c < 256 → (∀ d ∈ received, d < 256) → p < 256 →
    ∃ words pec, assemble (.pecReadFrame a c received p) = some words ∧
      pec = crc8 (BitVec.ofNat 8 ((a <<< 1) ||| 0) :: BitVec.ofNat 8 c ::
        BitVec.ofNat 8 ((a <<< 1) ||| 1) :: received.map (BitVec.ofNat 8)) ∧
      runWords words s = .next { s with block := { s.block with
        crc := pec, pecerr := decide (pec ≠ BitVec.ofNat 8 p),
        ci := s.block.ci + received.length + 5 } }

/-! ### The decoded values -/

/-- R84, `to_binary32`: zero for M = 0; else sign, biased exponent and fraction as the rule computes
them from the index `k` of the highest 1 bit, within the rule's bounds; always the exact value, and a
normal number where it is not zero.  The last two are said through `binary32Value` and `isNormal32`, the
model's reading of the binary32 layout (log entry 16). -/
def Obligations.Binary32IsExact : Prop :=
  ∀ m e : Int, -32768 ≤ m → m ≤ 32767 → -16 ≤ e → e ≤ 15 →
    (m = 0 → toBinary32 m e = 0x00000000#32) ∧
    (∀ k : Nat, 2 ^ k ≤ m.natAbs → m.natAbs < 2 ^ (k + 1) →
      k ≤ 15 ∧ 111 ≤ (k : Int) + e + 127 ∧ (k : Int) + e + 127 ≤ 157 ∧
      (m.natAbs - 2 ^ k) * 2 ^ (23 - k) < 2 ^ 23 ∧
      (toBinary32 m e).msb = decide (m < 0) ∧
      ((toBinary32 m e).extractLsb' 23 8).toNat = ((k : Int) + e + 127).toNat ∧
      ((toBinary32 m e).extractLsb' 0 23).toNat = (m.natAbs - 2 ^ k) * 2 ^ (23 - k)) ∧
    binary32Value (toBinary32 m e) = linearValue m e ∧
    (m ≠ 0 → isNormal32 (toBinary32 m e))

/-- 40_linear.md sections 1 to 3, by inference from R81, R82, R84, R85 and R86: the value LIN11 leaves in
FVAL is Y × 2^N of the word's own fields, and LIN16's is M × 2^E with the signed raw word and the exponent
field.  The rational of a binary32 word is the model's reading of the layout (log entry 16). -/
def Obligations.DecodedValueIsExact : Prop :=
  (∀ (w : Half) (s : State), ∃ t, exec (.lin11 w) s = .next t ∧
    binary32Value t.block.fval =
      linearValue (w.extractLsb' 0 11).toInt (w.extractLsb' 11 5).toInt) ∧
  ∀ (b : Byte) (w : Half) (s : State), ∃ t, exec (.lin16 b w) s = .next t ∧
    binary32Value t.block.fval = linearValue w.toInt (b.extractLsb' 0 5).toInt

/-- 40_linear.md section 1, the ranges of decoded values, of what the commands leave in FVAL: the value lies
in the format's range, is zero exactly for a zero mantissa, and is otherwise at least 2^−16 in magnitude;
both ends of each range and the least magnitude are reached.  The spec marks the ranges as its own
inference; the rational of a binary32 word is log entry 16's. -/
def Obligations.DecodedValueRanges : Prop :=
  (∀ (w : Half) (s : State), ∃ t, exec (.lin11 w) s = .next t ∧
    -33554432 ≤ binary32Value t.block.fval ∧ binary32Value t.block.fval ≤ 33521664 ∧
    (binary32Value t.block.fval = 0 ↔ w.extractLsb' 0 11 = 0#11) ∧
    (w.extractLsb' 0 11 ≠ 0#11 → (2 : ℚ) ^ (-16 : Int) ≤ abs (binary32Value t.block.fval))) ∧
  (∀ (b : Byte) (w : Half) (s : State), ∃ t, exec (.lin16 b w) s = .next t ∧
    -1073741824 ≤ binary32Value t.block.fval ∧ binary32Value t.block.fval ≤ 1073709056 ∧
    (binary32Value t.block.fval = 0 ↔ w = 0#16) ∧
    (w ≠ 0#16 → (2 : ℚ) ^ (-16 : Int) ≤ abs (binary32Value t.block.fval))) ∧
  ∀ (i : Instr) (x : ℚ),
    (i, x) ∈ [(Instr.lin11 0x7C00#16, (-33554432 : ℚ)), (.lin11 0x7BFF#16, 33521664),
      (.lin11 0x8001#16, (2 : ℚ) ^ (-16 : Int)), (.lin16 0x0F#8 0x8000#16, -1073741824),
      (.lin16 0x0F#8 0x7FFF#16, 1073709056), (.lin16 0x10#8 0x0001#16, (2 : ℚ) ^ (-16 : Int))] →
    ∀ s : State, ∃ t, exec i s = .next t ∧ binary32Value t.block.fval = x

/-- After a decode the host reads back exactly the fields, sign-extended to 32 bits, their value, and
which decoder ran (10_state.md section 3). -/
def Obligations.HostReadsBackTheDecode : Prop :=
  (∀ (w : Half) (s : State), ∃ t, exec (.lin11 w) s = .next t ∧
    hostReadValue 0x0C#8 t.block = BitVec.ofInt 32 (w.extractLsb' 0 11).toInt ∧
    hostReadValue 0x10#8 t.block = BitVec.ofInt 32 (w.extractLsb' 11 5).toInt ∧
    hostReadValue 0x14#8 t.block =
      toBinary32 (w.extractLsb' 0 11).toInt (w.extractLsb' 11 5).toInt ∧
    (hostReadValue 0x04#8 t.block).extractLsb' 2 2 = 0b01#2) ∧
  ∀ (b : Byte) (w : Half) (s : State), ∃ t, exec (.lin16 b w) s = .next t ∧
    hostReadValue 0x0C#8 t.block = BitVec.ofInt 32 w.toInt ∧
    hostReadValue 0x10#8 t.block = BitVec.ofInt 32 (b.extractLsb' 0 5).toInt ∧
    hostReadValue 0x14#8 t.block = toBinary32 w.toInt (b.extractLsb' 0 5).toInt ∧
    (hostReadValue 0x04#8 t.block).extractLsb' 2 2 = 0b10#2

/-! ### STATUS and the record over a run -/

/-- 10_state.md section 4, the layout of STATUS as the host reads it. -/
def Obligations.StatusLayout : Prop :=
  ∀ b : Block,
    (hostReadValue 0x04#8 b).getLsbD 0 = b.pecerr ∧
    (hostReadValue 0x04#8 b).getLsbD 1 = b.ill ∧
    (hostReadValue 0x04#8 b).extractLsb' 2 2 = b.rkind ∧
    (hostReadValue 0x04#8 b).extractLsb' 4 2 = b.cause ∧
    (hostReadValue 0x04#8 b).extractLsb' 6 26 = 0#26

/-- R26, PECERR: 1 exactly where the latest CRC_CHECK differed, overwritten by each legal CRC_CHECK,
cleared by STAT_CLR, and changed by nothing else but reset (or the model's loss of power, log entry 9). -/
def Obligations.PecerrIsTheLatestCheck : Prop :=
  (∀ (p : Byte) (s : State), ∃ t, exec (.crcCheck p) s = .next t ∧
    (t.block.pecerr = true ↔ p ≠ s.block.crc)) ∧
  (∀ s : State, ∃ t, exec .statClr s = .next t ∧ t.block.pecerr = false) ∧
  ∀ s t : State, step s = .next t → t.block.pecerr ≠ s.block.pecerr →
    s.commandPending 0x20000000#32 ∨ s.upheavalPending ∨
      ∃ p : Byte, s.commandPending (0x03#8 ++ p ++ 0#16)

/-- R27, ILL is sticky: an illegal word sets it, only STAT_CLR and reset (or the model's loss of power, log entry 9) clear it,
and legal commands other than STAT_CLR leave it unchanged. -/
def Obligations.IllIsSticky : Prop :=
  (∀ (v : Word) (c : IllegalCause) (s : State), decode v = .illegal c →
    ∃ t, commandWrite v s = .next t ∧ t.block.ill = true) ∧
  (∀ (i : Instr) (s : State), i ≠ .statClr →
    ∃ t, exec i s = .next t ∧ t.block.ill = s.block.ill) ∧
  (∀ s : State, ∃ t, exec .statClr s = .next t ∧ t.block.ill = false) ∧
  ∀ s t : State, step s = .next t → s.block.ill = true → t.block.ill = false →
    s.commandPending 0x20000000#32 ∨ s.upheavalPending

/-- R28, RKIND: LIN11 sets 0b01 and LIN16 sets 0b10, in the step that writes MANT, EXP and FVAL;
nothing else but reset (or the model's loss of power, log entry 9) changes any of the four, STAT_CLR included; with RKIND = 0b00
in a state that meets the invariant the host reads zero from all three result registers. -/
def Obligations.OnlyDecodersWriteResults : Prop :=
  (∀ (w : Half) (s : State), ∃ t, exec (.lin11 w) s = .next t ∧ t.block.rkind = 0b01#2) ∧
  (∀ (b : Byte) (w : Half) (s : State), ∃ t, exec (.lin16 b w) s = .next t ∧
    t.block.rkind = 0b10#2) ∧
  (∀ s t : State, step s = .next t →
    (t.block.mant, t.block.exp, t.block.fval, t.block.rkind) ≠
      (s.block.mant, s.block.exp, s.block.fval, s.block.rkind) →
    s.upheavalPending ∨
      (∃ w : Half, s.commandPending (0x10#8 ++ 0x00#8 ++ w) ∧ t.block.rkind = 0b01#2) ∨
      ∃ (b : Byte) (w : Half), s.commandPending (0x11#8 ++ b ++ w) ∧ t.block.rkind = 0b10#2) ∧
  ∀ b : Block, b.Inv → b.rkind = 0b00#2 →
    hostReadValue 0x0C#8 b = 0x00000000#32 ∧ hostReadValue 0x10#8 b = 0x00000000#32 ∧
      hostReadValue 0x14#8 b = 0x00000000#32

/-- R29 and R30, CAUSE and BADCMD: they are the latest illegal word's, whatever legal commands other
than STAT_CLR follow it; STAT_CLR and reset clear them; and in a state that meets the invariant CAUSE = 0
exactly when ILL = 0 and BADCMD ≠ 0 exactly when ILL = 1 (these two the spec marks as its own
inferences, and the invariant carries them). -/
def Obligations.RecordIsTheLatestIllegalWord : Prop :=
  (∀ (v : Word) (c : IllegalCause) (vs : List Word) (s : State), decode v = .illegal c →
    (∀ w ∈ vs, ∃ i, decode w = .command i ∧ i ≠ .statClr) →
    ∃ t, runWords (v :: vs) s = .next t ∧ t.block.ill = true ∧
      t.block.cause = causeCode c ∧ t.block.badcmd = v) ∧
  (∀ s : State, ∃ t, exec .statClr s = .next t ∧ t.block.cause = 0#2 ∧
    t.block.badcmd = 0x00000000#32) ∧
  (∀ s : State, s.resetBlock.block.cause = 0#2 ∧ s.resetBlock.block.badcmd = 0x00000000#32) ∧
  (∀ (v : Word) (c : IllegalCause), decode v = .illegal c → v ≠ 0x00000000#32) ∧
  ∀ b : Block, b.Inv →
    (b.cause = 0#2 ↔ b.ill = false) ∧ (b.badcmd ≠ 0x00000000#32 ↔ b.ill = true)

/-- R31, `ci`: zero after reset, one more after every write of a word to CMD, legal or illegal, changed
by nothing else; no command and no host read depends on it.  That a loss of power keeps `ci` too is the
model's choice and no rule of the spec, which leaves the state after it unspecified (R144; log entry 9,
unsafe for `ci`). -/
def Obligations.CiCountsCommandWords : Prop :=
  (∀ (s t : State) (e : Event) (rest : List Event), s.pending = e :: rest → step s = .next t →
    t.block.ci = if e = .reset then 0
      else if e.commandWord?.isSome then s.block.ci + 1 else s.block.ci) ∧
  (∀ (vs : List Word) (s : State), ∃ t, runWords vs s = .next t ∧
    t.block.ci = s.block.ci + vs.length) ∧
  (∀ (b : Block) (n : Nat) (off : Offset),
    hostReadValue off { b with ci := n } = hostReadValue off b) ∧
  ∀ (i : Instr) (s : State) (n : Nat), ∃ t, exec i s = .next t ∧
    exec i { s with block := { s.block with ci := n } } =
      .next { t with block := { t.block with ci := n } }

/-- The three parts of the block do not influence one another (10_state.md sections 6 and 7): over any
words, what the PEC engine leaves depends on its own registers alone, and so for the decoders and for
the error record. -/
def Obligations.PartsDoNotInterfere : Prop :=
  ∀ (vs : List Word) (s s' : State), ∃ t t',
    runWords vs s = .next t ∧ runWords vs s' = .next t' ∧
    (s.block.crc = s'.block.crc → t.block.crc = t'.block.crc) ∧
    (s.block.crc = s'.block.crc → s.block.pecerr = s'.block.pecerr →
      t.block.pecerr = t'.block.pecerr) ∧
    ((s.block.mant, s.block.exp, s.block.fval, s.block.rkind) =
        (s'.block.mant, s'.block.exp, s'.block.fval, s'.block.rkind) →
      (t.block.mant, t.block.exp, t.block.fval, t.block.rkind) =
        (t'.block.mant, t'.block.exp, t'.block.fval, t'.block.rkind)) ∧
    ((s.block.ill, s.block.cause, s.block.badcmd) =
        (s'.block.ill, s'.block.cause, s'.block.badcmd) →
      (t.block.ill, t.block.cause, t.block.badcmd) =
        (t'.block.ill, t'.block.cause, t'.block.badcmd))

/-! ### Host accesses and steps -/

/-- A step at a write of a legal word to CMD is `exec` of the decoded command, with what the step adds:
the event is taken, the block is bound to the host, and `ci` advances after the effect.  The event queue,
the placing of a word and the binding are the model's own (log entries 1, 3 and 6). -/
def Obligations.StepRunsTheDecodedCommand : Prop :=
  (∀ (s : State) (host : Nat) (v : Word) (rest : List Event) (i : Instr),
    s.pending = .access host (.memWrite 0x00#8 4 v) :: rest →
    s.admits host (.memWrite 0x00#8 4 v) → decode v = .command i →
    step s = match exec i { s with pending := rest, boundHost := some host } with
      | .next t => .next { t with block := { t.block with ci := t.block.ci + 1 } }
      | .fault r => .fault r
      | .refused r => .refused r) ∧
  ∀ (s : State) (w : Nat) (i : Instr), decodeTableWord 32 w = some i →
    s.block.rkind ≠ 0b11#2 → s.block.cause ≠ 0b11#2 →
    step (s.withFetchWord 32 w) =
      match exec i { s with boundHost := some (s.boundHost.getD 0) } with
      | .next t => .next { t with block := { t.block with ci := t.block.ci + 1 } }
      | .fault r => .fault r
      | .refused r => .refused r

/-- R44 with the model's host side, host reads: a supported read returns the register map's read value, changes nothing of the
block, not even `ci`, and two reads of one offset return the same value.  The list of returned values, the
events to come and the bound host are the model's own fields (log entries 1 and 6). -/
def Obligations.HostReadReturnsTheRegister : Prop :=
  (∀ (s : State) (host : Nat) (off : Offset) (rest : List Event),
    s.pending = .access host (.memRead off 4) :: rest → s.admits host (.memRead off 4) →
    step s = .next { s with
      pending := rest, boundHost := some host
      reads := s.reads ++ [hostReadValue off s.block] }) ∧
  (∀ b : Block,
    hostReadValue 0x00#8 b = 0x00000000#32 ∧
    hostReadValue 0x04#8 b =
      0#26 ++ b.cause ++ b.rkind ++ BitVec.ofBool b.ill ++ BitVec.ofBool b.pecerr ∧
    hostReadValue 0x08#8 b = b.crc.setWidth 32 ∧
    hostReadValue 0x0C#8 b = b.mant.signExtend 32 ∧
    hostReadValue 0x10#8 b = b.exp.signExtend 32 ∧
    hostReadValue 0x14#8 b = b.fval ∧
    hostReadValue 0x18#8 b = b.badcmd ∧
    ∀ off : Offset, 0x1C ≤ off.toNat → hostReadValue off b = 0x00000000#32) ∧
  ∀ (s : State) (host : Nat) (off : Offset) (rest : List Event),
    s.pending = .access host (.memRead off 4) :: .access host (.memRead off 4) :: rest →
    s.admits host (.memRead off 4) →
    ∃ x, Sys2Proof.core.run 2 s = .next { s with
      pending := rest, boundHost := some host, reads := s.reads ++ [x, x] }

/-- R45 with the model's host side, host writes: a supported write to CMD runs the word and then advances
`ci`; a write to any other offset is ignored.  That the host is bound and the event taken is the model's
own (log entries 1 and 6). -/
def Obligations.HostWriteRunsOrIsIgnored : Prop :=
  (∀ (s : State) (host : Nat) (v : Word) (rest : List Event),
    s.pending = .access host (.memWrite 0x00#8 4 v) :: rest →
    s.admits host (.memWrite 0x00#8 4 v) →
    ∃ t, executeWord v { s with pending := rest, boundHost := some host } = .next t ∧
      step s = .next { t with block := { t.block with ci := t.block.ci + 1 } }) ∧
  ∀ (s : State) (host : Nat) (off : Offset) (v : Word) (rest : List Event),
    s.pending = .access host (.memWrite off 4 v) :: rest →
    s.admits host (.memWrite off 4 v) → off ≠ 0x00#8 →
    step s = .next { s with pending := rest, boundHost := some host }

/-- R42: an access of another width than 32 bits, or at an offset that is not a multiple of 4, has no
step.  That a width is a number of bytes is log entry 5; that the refusal has this name also in a block
with RKIND = 0b11 or CAUSE = 3 is the model's order of the checks (log entry 11), as is that a second
host's access, left to `SecondHostIsRefused`, has another. -/
def Obligations.UnsupportedAccessIsRefused : Prop :=
  (∀ (s : State) (host n : Nat) (off : Offset) (rest : List Event),
    s.pending = .access host (.memRead off n) :: rest → n ≠ 4 ∨ off.toNat % 4 ≠ 0 →
    s.boundHost = none ∨ s.boundHost = some host →
    step s = .refused .unsupportedAccess) ∧
  ∀ (s : State) (host n : Nat) (off : Offset) (v : Word) (rest : List Event),
    s.pending = .access host (.memWrite off n v) :: rest → n ≠ 4 ∨ off.toNat % 4 ≠ 0 →
    s.boundHost = none ∨ s.boundHost = some host →
    step s = .refused .unsupportedAccess

/-- One host (60_exceptions.md section 4): an access by another host than the one bound has no step, and
once a host is bound no step unbinds it.  That the first host to access is the one bound is the model's
choice (log entry 6), and so is this refusal's name for an access that other checks refuse too (log
entry 11). -/
def Obligations.SecondHostIsRefused : Prop :=
  (∀ (s : State) (host other : Nat) (a : Access) (rest : List Event),
    s.pending = .access other a :: rest → s.boundHost = some host → other ≠ host →
    step s = .refused .secondHost) ∧
  ∀ (s t : State) (host : Nat), s.boundHost = some host → step s = .next t →
    t.boundHost = some host

/-- The block acts only on a host's command, a reset or a loss of power (00_scope.md section 4): any
other step that answers leaves every register as it was, and with no event to come nothing happens
(that such a step answers the same state is the model's choice, log entry 2). -/
def Obligations.BlockNeverActsAlone : Prop :=
  (∀ s t : State, step s = .next t → ¬ s.upheavalPending →
    (¬ ∃ v, s.commandPending v) → t.block = s.block) ∧
  ∀ s : State, s.pending = [] → step s = .next s

/-- Every aligned 32-bit access by the block's host answers a next state, whatever word it writes: no
command word stops the block (60_exceptions.md section 1).  That the step binds the block to the host is
the model's choice (log entry 6), and so is the launch check at every access that `State.admits` asks to
pass (log entry 7). -/
def Obligations.EverySupportedAccessRuns : Prop :=
  ∀ (s : State) (host : Nat) (a : Access) (rest : List Event),
    s.pending = .access host a :: rest → s.admits host a →
    ∃ t, step s = .next t ∧ t.pending = rest ∧ t.boundHost = some host

/-- 93_implementation_defined.md U6 and U7: a reset during an access has no step, and neither has an
access to a block that names a STATUS value that is never produced.  The reset as an event is log entry
10's, the check at every access log entry 7's. -/
def Obligations.ExcludedCasesAreRefused : Prop :=
  (∀ (s : State) (host : Nat) (a : Access) (rest : List Event),
    s.pending = .resetDuring host a :: rest → step s = .refused .resetDuringAccess) ∧
  ∀ (s : State) (host : Nat) (a : Access) (rest : List Event),
    s.pending = .access host a :: rest →
    s.boundHost = none ∨ s.boundHost = some host → a.supported = true →
    s.block.rkind = 0b11#2 ∨ s.block.cause = 0b11#2 →
    step s = .refused .reservedLaunchState

/-- A loss of power leaves the registers open, and the next reset makes all of them known again, whatever
they were (93_implementation_defined.md U5; log entry 9). -/
def Obligations.ResetRecoversFromPowerLoss : Prop :=
  ∀ (s : State) (rest : List Event), s.pending = .powerLoss :: .reset :: rest →
    ∃ t, Sys2Proof.core.run 2 s = .next t ∧ t.block = State.reset.block ∧ t.pending = rest ∧
      t.reads = s.reads ∧ t.boundHost = s.boundHost

/-- 70_reset_and_hazards.md section 5: a run of events from a launch state, written as a fold, is the
machine's own run over a queue that holds them. -/
def Obligations.RunOfEventsIsSteps : Prop :=
  ∀ (es : List Event) (s : State),
    Sys2Proof.core.run es.length { s with pending := es } =
      runEvents es { s with pending := [] }

/-- 20_memory.md section 1: the host address of an offset selects that offset, for every HOST_BASE (an
argument, log entry 4), and an address outside the 256 bytes selects none. -/
def Obligations.HostAddressesSelectOffsets : Prop :=
  (∀ (base : Nat) (off : Offset), offsetOfAddress base (hostAddress base off) = some off) ∧
  ∀ base addr : Nat, addr < base ∨ base + 256 ≤ addr ↔ offsetOfAddress base addr = none
end

