-- ==== Sys2Proof/Laws/Binary32.lean ====
section
/-! SUPPORT. The index of the highest 1 bit (40_linear.md R84). -/

namespace Sys2Proof.Machine

/-- The highest 1 bit of `a` is the only `k` with `a` in [2^k, 2^(k+1)). -/
theorem highestBit_unique {a k : Nat} (h1 : 2 ^ k ≤ a) (h2 : a < 2 ^ (k + 1)) :
    highestBit a = k := by
  have hpos : a ≠ 0 := by have := Nat.two_pow_pos k; omega
  exact (Nat.log2_eq_iff hpos).2 ⟨h1, h2⟩

/-- A non-zero number lies between its highest 1 bit's power of two and the next. -/
theorem highestBit_bounds {a : Nat} (h : a ≠ 0) :
    2 ^ highestBit a ≤ a ∧ a < 2 ^ (highestBit a + 1) :=
  (Nat.log2_eq_iff h).1 rfl

end Sys2Proof.Machine
end

