-- ==== Sys2Proof/Laws/Crc.lean ====
section
/-! SUPPORT. The CRC-8 rounds and fold (41_pec.md R100, R101). -/

namespace Sys2Proof.Machine

/-- The fold over two byte lists, one after the other. -/
theorem crcFold_append (c : Byte) (xs ys : List Byte) :
    crcFold c (xs ++ ys) = crcFold (crcFold c xs) ys := by
  induction xs generalizing c with
  | nil => rfl
  | cons b bs ih => exact ih (crcStep c b)

/-- One round is linear. -/
theorem crcRound_xor (c d : Byte) : crcRound (c ^^^ d) = crcRound c ^^^ crcRound d := by
  unfold crcRound
  rw [BitVec.msb_xor, BitVec.shiftLeft_xor_distrib]
  generalize c <<< 1 = x, d <<< 1 = y, crcPoly = p
  cases c.msb <;> cases d.msb <;> apply BitVec.eq_of_getLsbD_eq <;> intro i _ <;>
    simp [Bool.xor_left_comm, Bool.xor_comm]

/-- Any number of rounds is linear. -/
theorem crcRounds_xor (k : Nat) (c d : Byte) :
    crcRounds k (c ^^^ d) = crcRounds k c ^^^ crcRounds k d := by
  induction k generalizing c d with
  | zero => rfl
  | succ k ih => rw [crcRounds, crcRound_xor, ih]; rfl

/-- The eight rounds send no byte but zero to zero. -/
theorem crcRounds_eight_eq_zero (c : Byte) : crcRounds 8 c = 0x00#8 ↔ c = 0x00#8 := by
  revert c; decide

end Sys2Proof.Machine
end

