-- ==== Sys2Proof/Laws/Decode.lean ====
section
/-! SUPPORT. The command encoding in terms of the three fields of a word (30_encoding.md R61, R63). -/

namespace Sys2Proof

/-! ### Fields -/

@[simp] theorem opField_append (o b : Byte) (w : Half) : opField (o ++ b ++ w) = o := by
  ext i hi
  simp only [opField, BitVec.getElem_extractLsb', BitVec.getLsbD_append]
  simp [show ¬ 24 + i < 16 by omega, show ¬ 24 + i - 16 < 8 by omega,
    show 24 + i - 16 - 8 = i by omega, hi]

@[simp] theorem bField_append (o b : Byte) (w : Half) : bField (o ++ b ++ w) = b := by
  ext i hi
  simp only [bField, BitVec.getElem_extractLsb', BitVec.getLsbD_append]
  simp [show ¬ 16 + i < 16 by omega, hi]

@[simp] theorem wField_append (o b : Byte) (w : Half) : wField (o ++ b ++ w) = w := by
  ext i hi
  simp only [wField, BitVec.getElem_extractLsb', BitVec.getLsbD_append]
  simp [hi]

/-- A word is its three fields side by side. -/
theorem word_eq_fields (v : Word) : v = opField v ++ bField v ++ wField v := by
  apply BitVec.eq_of_getLsbD_eq
  intro i hi
  simp only [opField, bField, wField, BitVec.getLsbD_append, BitVec.getLsbD_extractLsb']
  by_cases h1 : i < 16
  · simp [h1]
  · by_cases h2 : i - 16 < 8
    · simp [h1, h2, show 16 + (i - 16) = i by omega]
    · simp [h1, h2, show 24 + (i - 16 - 8) = i by omega, show i - 16 - 8 < 8 by omega]

/-- Words with equal fields are equal. -/
theorem word_ext_fields {u v : Word} (ho : opField u = opField v) (hb : bField u = bField v)
    (hw : wField u = wField v) : u = v := by
  rw [word_eq_fields u, word_eq_fields v, ho, hb, hw]

@[simp] theorem opField_encode (i : Instr) : opField (encode i) = opcodeOf i.kind := by
  simp [encode]

@[simp] theorem bField_encode (i : Instr) : bField (encode i) = i.bOperand := by simp [encode]

@[simp] theorem wField_encode (i : Instr) : wField (encode i) = i.wOperand := by simp [encode]

/-! ### Match and mask, field by field -/

theorem opField_and (u v : Word) : opField (u &&& v) = opField u &&& opField v := by
  simp [opField, BitVec.extractLsb'_and]

theorem bField_and (u v : Word) : bField (u &&& v) = bField u &&& bField v := by
  simp [bField, BitVec.extractLsb'_and]

theorem wField_and (u v : Word) : wField (u &&& v) = wField u &&& wField v := by
  simp [wField, BitVec.extractLsb'_and]

theorem word_eq_iff_fields (u v : Word) :
    u = v ↔ opField u = opField v ∧ bField u = bField v ∧ wField u = wField v :=
  ⟨fun h => h ▸ ⟨rfl, rfl, rfl⟩, fun h => word_ext_fields h.1 h.2.1 h.2.2⟩

/-- A row selects a word exactly when each masked field is the pattern's. -/
theorem selects_iff (r : CommandRow) (v : Word) :
    r.selects v = true ↔ opField v &&& opField r.mask = opField r.pattern ∧
      bField v &&& bField r.mask = bField r.pattern ∧
      wField v &&& wField r.mask = wField r.pattern := by
  simp [CommandRow.selects, word_eq_iff_fields (v &&& r.mask), opField_and, bField_and, wField_and]

/-! ### The decoder, opcode by opcode -/

theorem and_ones8 (x : Byte) : x &&& 0xFF#8 = x := BitVec.and_allOnes (x := x)

theorem and_ones16 (x : Half) : x &&& 0xFFFF#16 = x := BitVec.and_allOnes (x := x)

theorem field_constants :
    opField 0xFFFFFFFF#32 = 0xFF#8 ∧ bField 0xFFFFFFFF#32 = 0xFF#8 ∧ wField 0xFFFFFFFF#32 = 0xFFFF#16 ∧
    opField 0xFF00FFFF#32 = 0xFF#8 ∧ bField 0xFF00FFFF#32 = 0#8 ∧ wField 0xFF00FFFF#32 = 0xFFFF#16 ∧
    opField 0xFFFF0000#32 = 0xFF#8 ∧ bField 0xFFFF0000#32 = 0xFF#8 ∧ wField 0xFFFF0000#32 = 0#16 ∧
    opField 0xFF000000#32 = 0xFF#8 ∧ bField 0xFF000000#32 = 0#8 ∧ wField 0xFF000000#32 = 0#16 := by
  decide

theorem field_patterns :
    opField 0x00000000#32 = 0x00#8 ∧ bField 0x00000000#32 = 0#8 ∧ wField 0x00000000#32 = 0#16 ∧
    opField 0x01000000#32 = 0x01#8 ∧ bField 0x01000000#32 = 0#8 ∧ wField 0x01000000#32 = 0#16 ∧
    opField 0x02000000#32 = 0x02#8 ∧ bField 0x02000000#32 = 0#8 ∧ wField 0x02000000#32 = 0#16 ∧
    opField 0x03000000#32 = 0x03#8 ∧ bField 0x03000000#32 = 0#8 ∧ wField 0x03000000#32 = 0#16 ∧
    opField 0x10000000#32 = 0x10#8 ∧ bField 0x10000000#32 = 0#8 ∧ wField 0x10000000#32 = 0#16 ∧
    opField 0x11000000#32 = 0x11#8 ∧ bField 0x11000000#32 = 0#8 ∧ wField 0x11000000#32 = 0#16 ∧
    opField 0x20000000#32 = 0x20#8 ∧ bField 0x20000000#32 = 0#8 ∧ wField 0x20000000#32 = 0#16 := by
  decide

/-- The opcode map's rows, found by opcode. -/
theorem rowOf_eq (op : Byte) :
    rowOf op =
      if op = 0x00#8 then some ⟨.nop, 0x00#8, 0x00000000#32, 0xFFFFFFFF#32⟩
      else if op = 0x01#8 then some ⟨.crcClr, 0x01#8, 0x01000000#32, 0xFFFFFFFF#32⟩
      else if op = 0x02#8 then some ⟨.crcByte, 0x02#8, 0x02000000#32, 0xFF00FFFF#32⟩
      else if op = 0x03#8 then some ⟨.crcCheck, 0x03#8, 0x03000000#32, 0xFF00FFFF#32⟩
      else if op = 0x10#8 then some ⟨.lin11, 0x10#8, 0x10000000#32, 0xFFFF0000#32⟩
      else if op = 0x11#8 then some ⟨.lin16, 0x11#8, 0x11000000#32, 0xFF000000#32⟩
      else if op = 0x20#8 then some ⟨.statClr, 0x20#8, 0x20000000#32, 0xFFFFFFFF#32⟩
      else none := by
  revert op; decide

/-- The decoder in terms of the fields: the opcode first, then the reserved fields (R63, R133). -/
theorem decode_eq_fields (v : Word) :
    decode v =
      if opField v = 0x00#8 then
        if bField v = 0#8 ∧ wField v = 0#16 then .command .nop else .illegal .reservedNonzero
      else if opField v = 0x01#8 then
        if bField v = 0#8 ∧ wField v = 0#16 then .command .crcClr else .illegal .reservedNonzero
      else if opField v = 0x02#8 then
        if wField v = 0#16 then .command (.crcByte (bField v)) else .illegal .reservedNonzero
      else if opField v = 0x03#8 then
        if wField v = 0#16 then .command (.crcCheck (bField v)) else .illegal .reservedNonzero
      else if opField v = 0x10#8 then
        if bField v = 0#8 then .command (.lin11 (wField v)) else .illegal .reservedNonzero
      else if opField v = 0x11#8 then .command (.lin16 (bField v) (wField v))
      else if opField v = 0x20#8 then
        if bField v = 0#8 ∧ wField v = 0#16 then .command .statClr else .illegal .reservedNonzero
      else .illegal .unassignedOpcode := by
  obtain ⟨f1, f2, f3, f4, f5, f6, f7, f8, f9, f10, f11, f12⟩ := field_constants
  unfold decode
  rw [rowOf_eq]
  split_ifs <;>
    simp_all [selects_iff, buildCommand, and_ones8, and_ones16, field_patterns]

end Sys2Proof
end

