-- ==== Sys2Proof/Laws/State.lean ====
section
/-! SUPPORT. One lemma per field per update, true by definition, so that no proof unfolds a record
update. -/

namespace Sys2Proof.Machine

variable (s : State)
/-! ### setCrc -/
@[simp] theorem State.setCrc_crc (v : BitVec 8) : (s.setCrc v).block.crc = v := rfl
@[simp] theorem State.setCrc_mant (v : BitVec 8) : (s.setCrc v).block.mant = s.block.mant := rfl
@[simp] theorem State.setCrc_exp (v : BitVec 8) : (s.setCrc v).block.exp = s.block.exp := rfl
@[simp] theorem State.setCrc_fval (v : BitVec 8) : (s.setCrc v).block.fval = s.block.fval := rfl
@[simp] theorem State.setCrc_pecerr (v : BitVec 8) : (s.setCrc v).block.pecerr = s.block.pecerr := rfl
@[simp] theorem State.setCrc_ill (v : BitVec 8) : (s.setCrc v).block.ill = s.block.ill := rfl
@[simp] theorem State.setCrc_rkind (v : BitVec 8) : (s.setCrc v).block.rkind = s.block.rkind := rfl
@[simp] theorem State.setCrc_cause (v : BitVec 8) : (s.setCrc v).block.cause = s.block.cause := rfl
@[simp] theorem State.setCrc_badcmd (v : BitVec 8) : (s.setCrc v).block.badcmd = s.block.badcmd := rfl
@[simp] theorem State.setCrc_ci (v : BitVec 8) : (s.setCrc v).block.ci = s.block.ci := rfl
@[simp] theorem State.setCrc_pending (v : BitVec 8) : (s.setCrc v).pending = s.pending := rfl
@[simp] theorem State.setCrc_reads (v : BitVec 8) : (s.setCrc v).reads = s.reads := rfl
@[simp] theorem State.setCrc_boundHost (v : BitVec 8) : (s.setCrc v).boundHost = s.boundHost := rfl
@[simp] theorem State.setCrc_freeCount (v : BitVec 8) : (s.setCrc v).freeCount = s.freeCount := rfl

/-! ### setMant -/
@[simp] theorem State.setMant_crc (v : BitVec 16) : (s.setMant v).block.crc = s.block.crc := rfl
@[simp] theorem State.setMant_mant (v : BitVec 16) : (s.setMant v).block.mant = v := rfl
@[simp] theorem State.setMant_exp (v : BitVec 16) : (s.setMant v).block.exp = s.block.exp := rfl
@[simp] theorem State.setMant_fval (v : BitVec 16) : (s.setMant v).block.fval = s.block.fval := rfl
@[simp] theorem State.setMant_pecerr (v : BitVec 16) : (s.setMant v).block.pecerr = s.block.pecerr := rfl
@[simp] theorem State.setMant_ill (v : BitVec 16) : (s.setMant v).block.ill = s.block.ill := rfl
@[simp] theorem State.setMant_rkind (v : BitVec 16) : (s.setMant v).block.rkind = s.block.rkind := rfl
@[simp] theorem State.setMant_cause (v : BitVec 16) : (s.setMant v).block.cause = s.block.cause := rfl
@[simp] theorem State.setMant_badcmd (v : BitVec 16) : (s.setMant v).block.badcmd = s.block.badcmd := rfl
@[simp] theorem State.setMant_ci (v : BitVec 16) : (s.setMant v).block.ci = s.block.ci := rfl
@[simp] theorem State.setMant_pending (v : BitVec 16) : (s.setMant v).pending = s.pending := rfl
@[simp] theorem State.setMant_reads (v : BitVec 16) : (s.setMant v).reads = s.reads := rfl
@[simp] theorem State.setMant_boundHost (v : BitVec 16) : (s.setMant v).boundHost = s.boundHost := rfl
@[simp] theorem State.setMant_freeCount (v : BitVec 16) : (s.setMant v).freeCount = s.freeCount := rfl

/-! ### setExp -/
@[simp] theorem State.setExp_crc (v : BitVec 5) : (s.setExp v).block.crc = s.block.crc := rfl
@[simp] theorem State.setExp_mant (v : BitVec 5) : (s.setExp v).block.mant = s.block.mant := rfl
@[simp] theorem State.setExp_exp (v : BitVec 5) : (s.setExp v).block.exp = v := rfl
@[simp] theorem State.setExp_fval (v : BitVec 5) : (s.setExp v).block.fval = s.block.fval := rfl
@[simp] theorem State.setExp_pecerr (v : BitVec 5) : (s.setExp v).block.pecerr = s.block.pecerr := rfl
@[simp] theorem State.setExp_ill (v : BitVec 5) : (s.setExp v).block.ill = s.block.ill := rfl
@[simp] theorem State.setExp_rkind (v : BitVec 5) : (s.setExp v).block.rkind = s.block.rkind := rfl
@[simp] theorem State.setExp_cause (v : BitVec 5) : (s.setExp v).block.cause = s.block.cause := rfl
@[simp] theorem State.setExp_badcmd (v : BitVec 5) : (s.setExp v).block.badcmd = s.block.badcmd := rfl
@[simp] theorem State.setExp_ci (v : BitVec 5) : (s.setExp v).block.ci = s.block.ci := rfl
@[simp] theorem State.setExp_pending (v : BitVec 5) : (s.setExp v).pending = s.pending := rfl
@[simp] theorem State.setExp_reads (v : BitVec 5) : (s.setExp v).reads = s.reads := rfl
@[simp] theorem State.setExp_boundHost (v : BitVec 5) : (s.setExp v).boundHost = s.boundHost := rfl
@[simp] theorem State.setExp_freeCount (v : BitVec 5) : (s.setExp v).freeCount = s.freeCount := rfl

/-! ### setFval -/
@[simp] theorem State.setFval_crc (v : BitVec 32) : (s.setFval v).block.crc = s.block.crc := rfl
@[simp] theorem State.setFval_mant (v : BitVec 32) : (s.setFval v).block.mant = s.block.mant := rfl
@[simp] theorem State.setFval_exp (v : BitVec 32) : (s.setFval v).block.exp = s.block.exp := rfl
@[simp] theorem State.setFval_fval (v : BitVec 32) : (s.setFval v).block.fval = v := rfl
@[simp] theorem State.setFval_pecerr (v : BitVec 32) : (s.setFval v).block.pecerr = s.block.pecerr := rfl
@[simp] theorem State.setFval_ill (v : BitVec 32) : (s.setFval v).block.ill = s.block.ill := rfl
@[simp] theorem State.setFval_rkind (v : BitVec 32) : (s.setFval v).block.rkind = s.block.rkind := rfl
@[simp] theorem State.setFval_cause (v : BitVec 32) : (s.setFval v).block.cause = s.block.cause := rfl
@[simp] theorem State.setFval_badcmd (v : BitVec 32) : (s.setFval v).block.badcmd = s.block.badcmd := rfl
@[simp] theorem State.setFval_ci (v : BitVec 32) : (s.setFval v).block.ci = s.block.ci := rfl
@[simp] theorem State.setFval_pending (v : BitVec 32) : (s.setFval v).pending = s.pending := rfl
@[simp] theorem State.setFval_reads (v : BitVec 32) : (s.setFval v).reads = s.reads := rfl
@[simp] theorem State.setFval_boundHost (v : BitVec 32) : (s.setFval v).boundHost = s.boundHost := rfl
@[simp] theorem State.setFval_freeCount (v : BitVec 32) : (s.setFval v).freeCount = s.freeCount := rfl

/-! ### setPecerr -/
@[simp] theorem State.setPecerr_crc (v : Bool) : (s.setPecerr v).block.crc = s.block.crc := rfl
@[simp] theorem State.setPecerr_mant (v : Bool) : (s.setPecerr v).block.mant = s.block.mant := rfl
@[simp] theorem State.setPecerr_exp (v : Bool) : (s.setPecerr v).block.exp = s.block.exp := rfl
@[simp] theorem State.setPecerr_fval (v : Bool) : (s.setPecerr v).block.fval = s.block.fval := rfl
@[simp] theorem State.setPecerr_pecerr (v : Bool) : (s.setPecerr v).block.pecerr = v := rfl
@[simp] theorem State.setPecerr_ill (v : Bool) : (s.setPecerr v).block.ill = s.block.ill := rfl
@[simp] theorem State.setPecerr_rkind (v : Bool) : (s.setPecerr v).block.rkind = s.block.rkind := rfl
@[simp] theorem State.setPecerr_cause (v : Bool) : (s.setPecerr v).block.cause = s.block.cause := rfl
@[simp] theorem State.setPecerr_badcmd (v : Bool) : (s.setPecerr v).block.badcmd = s.block.badcmd := rfl
@[simp] theorem State.setPecerr_ci (v : Bool) : (s.setPecerr v).block.ci = s.block.ci := rfl
@[simp] theorem State.setPecerr_pending (v : Bool) : (s.setPecerr v).pending = s.pending := rfl
@[simp] theorem State.setPecerr_reads (v : Bool) : (s.setPecerr v).reads = s.reads := rfl
@[simp] theorem State.setPecerr_boundHost (v : Bool) : (s.setPecerr v).boundHost = s.boundHost := rfl
@[simp] theorem State.setPecerr_freeCount (v : Bool) : (s.setPecerr v).freeCount = s.freeCount := rfl

/-! ### setIll -/
@[simp] theorem State.setIll_crc (v : Bool) : (s.setIll v).block.crc = s.block.crc := rfl
@[simp] theorem State.setIll_mant (v : Bool) : (s.setIll v).block.mant = s.block.mant := rfl
@[simp] theorem State.setIll_exp (v : Bool) : (s.setIll v).block.exp = s.block.exp := rfl
@[simp] theorem State.setIll_fval (v : Bool) : (s.setIll v).block.fval = s.block.fval := rfl
@[simp] theorem State.setIll_pecerr (v : Bool) : (s.setIll v).block.pecerr = s.block.pecerr := rfl
@[simp] theorem State.setIll_ill (v : Bool) : (s.setIll v).block.ill = v := rfl
@[simp] theorem State.setIll_rkind (v : Bool) : (s.setIll v).block.rkind = s.block.rkind := rfl
@[simp] theorem State.setIll_cause (v : Bool) : (s.setIll v).block.cause = s.block.cause := rfl
@[simp] theorem State.setIll_badcmd (v : Bool) : (s.setIll v).block.badcmd = s.block.badcmd := rfl
@[simp] theorem State.setIll_ci (v : Bool) : (s.setIll v).block.ci = s.block.ci := rfl
@[simp] theorem State.setIll_pending (v : Bool) : (s.setIll v).pending = s.pending := rfl
@[simp] theorem State.setIll_reads (v : Bool) : (s.setIll v).reads = s.reads := rfl
@[simp] theorem State.setIll_boundHost (v : Bool) : (s.setIll v).boundHost = s.boundHost := rfl
@[simp] theorem State.setIll_freeCount (v : Bool) : (s.setIll v).freeCount = s.freeCount := rfl

/-! ### setRkind -/
@[simp] theorem State.setRkind_crc (v : BitVec 2) : (s.setRkind v).block.crc = s.block.crc := rfl
@[simp] theorem State.setRkind_mant (v : BitVec 2) : (s.setRkind v).block.mant = s.block.mant := rfl
@[simp] theorem State.setRkind_exp (v : BitVec 2) : (s.setRkind v).block.exp = s.block.exp := rfl
@[simp] theorem State.setRkind_fval (v : BitVec 2) : (s.setRkind v).block.fval = s.block.fval := rfl
@[simp] theorem State.setRkind_pecerr (v : BitVec 2) : (s.setRkind v).block.pecerr = s.block.pecerr := rfl
@[simp] theorem State.setRkind_ill (v : BitVec 2) : (s.setRkind v).block.ill = s.block.ill := rfl
@[simp] theorem State.setRkind_rkind (v : BitVec 2) : (s.setRkind v).block.rkind = v := rfl
@[simp] theorem State.setRkind_cause (v : BitVec 2) : (s.setRkind v).block.cause = s.block.cause := rfl
@[simp] theorem State.setRkind_badcmd (v : BitVec 2) : (s.setRkind v).block.badcmd = s.block.badcmd := rfl
@[simp] theorem State.setRkind_ci (v : BitVec 2) : (s.setRkind v).block.ci = s.block.ci := rfl
@[simp] theorem State.setRkind_pending (v : BitVec 2) : (s.setRkind v).pending = s.pending := rfl
@[simp] theorem State.setRkind_reads (v : BitVec 2) : (s.setRkind v).reads = s.reads := rfl
@[simp] theorem State.setRkind_boundHost (v : BitVec 2) : (s.setRkind v).boundHost = s.boundHost := rfl
@[simp] theorem State.setRkind_freeCount (v : BitVec 2) : (s.setRkind v).freeCount = s.freeCount := rfl

/-! ### setCause -/
@[simp] theorem State.setCause_crc (v : BitVec 2) : (s.setCause v).block.crc = s.block.crc := rfl
@[simp] theorem State.setCause_mant (v : BitVec 2) : (s.setCause v).block.mant = s.block.mant := rfl
@[simp] theorem State.setCause_exp (v : BitVec 2) : (s.setCause v).block.exp = s.block.exp := rfl
@[simp] theorem State.setCause_fval (v : BitVec 2) : (s.setCause v).block.fval = s.block.fval := rfl
@[simp] theorem State.setCause_pecerr (v : BitVec 2) : (s.setCause v).block.pecerr = s.block.pecerr := rfl
@[simp] theorem State.setCause_ill (v : BitVec 2) : (s.setCause v).block.ill = s.block.ill := rfl
@[simp] theorem State.setCause_rkind (v : BitVec 2) : (s.setCause v).block.rkind = s.block.rkind := rfl
@[simp] theorem State.setCause_cause (v : BitVec 2) : (s.setCause v).block.cause = v := rfl
@[simp] theorem State.setCause_badcmd (v : BitVec 2) : (s.setCause v).block.badcmd = s.block.badcmd := rfl
@[simp] theorem State.setCause_ci (v : BitVec 2) : (s.setCause v).block.ci = s.block.ci := rfl
@[simp] theorem State.setCause_pending (v : BitVec 2) : (s.setCause v).pending = s.pending := rfl
@[simp] theorem State.setCause_reads (v : BitVec 2) : (s.setCause v).reads = s.reads := rfl
@[simp] theorem State.setCause_boundHost (v : BitVec 2) : (s.setCause v).boundHost = s.boundHost := rfl
@[simp] theorem State.setCause_freeCount (v : BitVec 2) : (s.setCause v).freeCount = s.freeCount := rfl

/-! ### setBadcmd -/
@[simp] theorem State.setBadcmd_crc (v : BitVec 32) : (s.setBadcmd v).block.crc = s.block.crc := rfl
@[simp] theorem State.setBadcmd_mant (v : BitVec 32) : (s.setBadcmd v).block.mant = s.block.mant := rfl
@[simp] theorem State.setBadcmd_exp (v : BitVec 32) : (s.setBadcmd v).block.exp = s.block.exp := rfl
@[simp] theorem State.setBadcmd_fval (v : BitVec 32) : (s.setBadcmd v).block.fval = s.block.fval := rfl
@[simp] theorem State.setBadcmd_pecerr (v : BitVec 32) : (s.setBadcmd v).block.pecerr = s.block.pecerr := rfl
@[simp] theorem State.setBadcmd_ill (v : BitVec 32) : (s.setBadcmd v).block.ill = s.block.ill := rfl
@[simp] theorem State.setBadcmd_rkind (v : BitVec 32) : (s.setBadcmd v).block.rkind = s.block.rkind := rfl
@[simp] theorem State.setBadcmd_cause (v : BitVec 32) : (s.setBadcmd v).block.cause = s.block.cause := rfl
@[simp] theorem State.setBadcmd_badcmd (v : BitVec 32) : (s.setBadcmd v).block.badcmd = v := rfl
@[simp] theorem State.setBadcmd_ci (v : BitVec 32) : (s.setBadcmd v).block.ci = s.block.ci := rfl
@[simp] theorem State.setBadcmd_pending (v : BitVec 32) : (s.setBadcmd v).pending = s.pending := rfl
@[simp] theorem State.setBadcmd_reads (v : BitVec 32) : (s.setBadcmd v).reads = s.reads := rfl
@[simp] theorem State.setBadcmd_boundHost (v : BitVec 32) : (s.setBadcmd v).boundHost = s.boundHost := rfl
@[simp] theorem State.setBadcmd_freeCount (v : BitVec 32) : (s.setBadcmd v).freeCount = s.freeCount := rfl

/-! ### advanceCi -/
@[simp] theorem State.advanceCi_crc : s.advanceCi.block.crc = s.block.crc := rfl
@[simp] theorem State.advanceCi_mant : s.advanceCi.block.mant = s.block.mant := rfl
@[simp] theorem State.advanceCi_exp : s.advanceCi.block.exp = s.block.exp := rfl
@[simp] theorem State.advanceCi_fval : s.advanceCi.block.fval = s.block.fval := rfl
@[simp] theorem State.advanceCi_pecerr : s.advanceCi.block.pecerr = s.block.pecerr := rfl
@[simp] theorem State.advanceCi_ill : s.advanceCi.block.ill = s.block.ill := rfl
@[simp] theorem State.advanceCi_rkind : s.advanceCi.block.rkind = s.block.rkind := rfl
@[simp] theorem State.advanceCi_cause : s.advanceCi.block.cause = s.block.cause := rfl
@[simp] theorem State.advanceCi_badcmd : s.advanceCi.block.badcmd = s.block.badcmd := rfl
@[simp] theorem State.advanceCi_ci : s.advanceCi.block.ci = s.block.ci + 1 := rfl
@[simp] theorem State.advanceCi_pending : s.advanceCi.pending = s.pending := rfl
@[simp] theorem State.advanceCi_reads : s.advanceCi.reads = s.reads := rfl
@[simp] theorem State.advanceCi_boundHost : s.advanceCi.boundHost = s.boundHost := rfl
@[simp] theorem State.advanceCi_freeCount : s.advanceCi.freeCount = s.freeCount := rfl

/-! ### The host side and reset -/
@[simp] theorem State.recordRead_block (v : Word) : (s.recordRead v).block = s.block := rfl
@[simp] theorem State.recordRead_pending (v : Word) : (s.recordRead v).pending = s.pending := rfl
@[simp] theorem State.recordRead_reads (v : Word) : (s.recordRead v).reads = s.reads ++ [v] := rfl
@[simp] theorem State.recordRead_boundHost (v : Word) : (s.recordRead v).boundHost = s.boundHost := rfl
@[simp] theorem State.recordRead_freeCount (v : Word) : (s.recordRead v).freeCount = s.freeCount := rfl
@[simp] theorem State.bindHost_block (h : Nat) : (s.bindHost h).block = s.block := rfl
@[simp] theorem State.bindHost_pending (h : Nat) : (s.bindHost h).pending = s.pending := rfl
@[simp] theorem State.bindHost_reads (h : Nat) : (s.bindHost h).reads = s.reads := rfl
@[simp] theorem State.bindHost_boundHost (h : Nat) : (s.bindHost h).boundHost = some h := rfl
@[simp] theorem State.bindHost_freeCount (h : Nat) : (s.bindHost h).freeCount = s.freeCount := rfl
@[simp] theorem State.resetBlock_block : s.resetBlock.block = Block.reset := rfl
@[simp] theorem State.resetBlock_pending : s.resetBlock.pending = s.pending := rfl
@[simp] theorem State.resetBlock_reads : s.resetBlock.reads = s.reads := rfl
@[simp] theorem State.resetBlock_boundHost : s.resetBlock.boundHost = s.boundHost := rfl
@[simp] theorem State.resetBlock_freeCount : s.resetBlock.freeCount = s.freeCount := rfl
@[simp] theorem State.losePower_ci : s.losePower.block.ci = s.block.ci := rfl
@[simp] theorem State.losePower_pending : s.losePower.pending = s.pending := rfl
@[simp] theorem State.losePower_reads : s.losePower.reads = s.reads := rfl
@[simp] theorem State.losePower_boundHost : s.losePower.boundHost = s.boundHost := rfl
@[simp] theorem State.losePower_freeCount : s.losePower.freeCount = s.freeCount + 9 := rfl
@[simp] theorem State.placeCommand_block (v : Word) : (s.placeCommand v).block = s.block := rfl
@[simp] theorem State.placeCommand_pending (v : Word) : (s.placeCommand v).pending = .access s.currentHost (.memWrite 0x00#8 4 v) :: s.pending := rfl
@[simp] theorem State.placeCommand_reads (v : Word) : (s.placeCommand v).reads = s.reads := rfl
@[simp] theorem State.placeCommand_boundHost (v : Word) : (s.placeCommand v).boundHost = s.boundHost := rfl
@[simp] theorem State.placeCommand_freeCount (v : Word) : (s.placeCommand v).freeCount = s.freeCount := rfl

end Sys2Proof.Machine
end

