-- ==== Sys2Proof/Laws/Exec.lean ====
section
/-! SUPPORT. What each shared operation, command and command word does, said once. -/

namespace Sys2Proof.Machine

variable (s : State)

/-! ### Shared operations -/

/-- The error record writes ILL, CAUSE and BADCMD and nothing else (60_exceptions.md R134). -/
theorem State.raiseIllegal_eq (c : IllegalCause) (v : Word) :
    s.raiseIllegal c v =
      { s with block := { s.block with ill := true, cause := causeCode c, badcmd := v } } := rfl

/-- A decode writes MANT, EXP, FVAL and RKIND and nothing else (40_linear.md R85, R86). -/
theorem State.writeResult_eq (mant : BitVec 16) (exp : BitVec 5) (kind : BitVec 2) :
    s.writeResult mant exp kind =
      { s with block := { s.block with
          mant := mant, exp := exp, fval := toBinary32 (sext mant) (sext exp), rkind := kind } } := rfl

/-- Taking the next event answers nothing exactly where there is none. -/
theorem State.takeEvent_nil (h : s.pending = []) : s.takeEvent = none := by
  simp [State.takeEvent, h]

theorem State.takeEvent_cons {e : Event} {rest : List Event} (h : s.pending = e :: rest) :
    s.takeEvent = some (e, { s with pending := rest }) := by simp [State.takeEvent, h]

/-- The host check admits the first host and the bound one. -/
theorem State.admitsHost_iff (host : Nat) :
    s.admitsHost host = true ↔ s.boundHost = none ∨ s.boundHost = some host := by
  simp [State.admitsHost]

/-- The launch check holds exactly where a never-produced STATUS value stands. -/
theorem Block.holdsReservedStatus_iff (b : Block) :
    b.holdsReservedStatus = true ↔ b.rkind = rkindReserved ∨ b.cause = causeReserved := by
  simp [Block.holdsReservedStatus]

/-- Two bytes differ exactly where the PEC comparison says so (41_pec.md R105). -/
theorem pecMismatch_iff (crc p : Byte) : pecMismatch crc p = true ↔ crc ≠ p := by
  simp [pecMismatch]

/-- After a loss of power the host side is as it was and `ci` counts on; of the registers nothing is
said. -/
theorem State.losePower_eq : ∃ b : Block, b.ci = s.block.ci ∧
    s.losePower = { s with block := b, freeCount := s.freeCount + 9 } :=
  ⟨s.losePower.block, rfl, rfl⟩

/-! ### Commands -/

theorem exec_nop : exec .nop s = .next s := rfl

theorem exec_crcClr :
    exec .crcClr s = .next { s with block := { s.block with crc := 0x00#8 } } := rfl

theorem exec_crcByte (b : Byte) :
    exec (.crcByte b) s =
      .next { s with block := { s.block with crc := crcStep s.block.crc b } } := rfl

theorem exec_crcCheck (p : Byte) :
    exec (.crcCheck p) s =
      .next { s with block := { s.block with pecerr := pecMismatch s.block.crc p } } := rfl

theorem exec_lin11 (w : Half) :
    exec (.lin11 w) s =
      .next (s.writeResult (enc 16 (sext (lin11Mantissa w))) (lin11Exponent w) rkindLin11) := rfl

theorem exec_lin16 (b : Byte) (w : Half) :
    exec (.lin16 b w) s = .next (s.writeResult w (lin16Exponent b) rkindLin16) := rfl

theorem exec_statClr :
    exec .statClr s = .next { s with block := { s.block with
      pecerr := false, ill := false, cause := 0b00#2, badcmd := 0x00000000#32 } } := rfl

/-- Every command answers a next state that differs in the block alone, `ci` apart. -/
theorem exec_changes_block_only (i : Instr) :
    ∃ b : Block, exec i s = .next { s with block := b } ∧ b.ci = s.block.ci := by
  cases i <;> exact ⟨_, rfl, rfl⟩

/-! ### Command words -/

theorem executeWord_command {v : Word} {i : Instr} (h : decode v = .command i) :
    executeWord v s = exec i s := by simp [executeWord, h]

theorem executeWord_illegal {v : Word} {c : IllegalCause} (h : decode v = .illegal c) :
    executeWord v s = .next (s.raiseIllegal c v) := by simp [executeWord, h]

/-- Running a word answers a next state that differs in the block alone, `ci` apart. -/
theorem executeWord_changes_block_only (v : Word) :
    ∃ b : Block, executeWord v s = .next { s with block := b } ∧ b.ci = s.block.ci := by
  cases h : decode v with
  | command i => rw [executeWord_command s h]; exact exec_changes_block_only s i
  | illegal c => rw [executeWord_illegal s h]; exact ⟨_, rfl, rfl⟩

/-- A word written to CMD is run and then counted (20_memory.md R45). -/
theorem commandWrite_of_execute {v : Word} {t : State} (h : executeWord v s = .next t) :
    commandWrite v s = .next t.advanceCi := by simp [commandWrite, h]

theorem commandWrite_of_command {v : Word} {i : Instr} {t : State} (h : decode v = .command i)
    (he : exec i s = .next t) : commandWrite v s = .next t.advanceCi :=
  commandWrite_of_execute s ((executeWord_command s h).trans he)

theorem commandWrite_of_illegal {v : Word} {c : IllegalCause} (h : decode v = .illegal c) :
    commandWrite v s = .next (s.raiseIllegal c v).advanceCi :=
  commandWrite_of_execute s (executeWord_illegal s h)

/-- A word written to CMD answers a next state that differs in the block alone. -/
theorem commandWrite_changes_block_only (v : Word) :
    ∃ b : Block, commandWrite v s = .next { s with block := b } ∧ b.ci = s.block.ci + 1 := by
  obtain ⟨b, hb, hci⟩ := executeWord_changes_block_only s v
  exact ⟨{ b with ci := b.ci + 1 }, commandWrite_of_execute s hb, by simp [hci]⟩

end Sys2Proof.Machine
end

