-- ==== Sys2Proof/Laws/Ops.lean ====
section
/-! SUPPORT. The host's reads, the binary32 encoding and the assembler, each said once. -/

namespace Sys2Proof.Machine

/-! ### Host reads, offset by offset (20_memory.md R41) -/

variable (b : Block)

@[simp] theorem hostReadValue_cmd : hostReadValue 0x00#8 b = 0x00000000#32 := rfl

@[simp] theorem hostReadValue_status : hostReadValue 0x04#8 b = statusWord b := rfl

@[simp] theorem hostReadValue_crc : hostReadValue 0x08#8 b = zext 32 b.crc := rfl

@[simp] theorem hostReadValue_mant : hostReadValue 0x0C#8 b = enc 32 (sext b.mant) := rfl

@[simp] theorem hostReadValue_exp : hostReadValue 0x10#8 b = enc 32 (sext b.exp) := rfl

@[simp] theorem hostReadValue_fval : hostReadValue 0x14#8 b = b.fval := rfl

@[simp] theorem hostReadValue_badcmd : hostReadValue 0x18#8 b = b.badcmd := rfl

/-- Reserved offsets read zero. -/
theorem hostReadValue_reserved {off : Offset}
    (h : off ∉ [0x00#8, 0x04#8, 0x08#8, 0x0C#8, 0x10#8, 0x14#8, 0x18#8]) :
    hostReadValue off b = 0x00000000#32 := by
  simp only [List.mem_cons, List.not_mem_nil, or_false, not_or] at h
  simp [hostReadValue, h]

/-! ### Sign extension -/

/-- Encoding a sign-extended field is the bit-vector sign extension. -/
theorem enc_sext {n : Nat} (w : Nat) (v : BitVec n) : enc w (sext v) = v.signExtend w := rfl

/-- Sign extension to a wider field keeps the integer (00_scope.md R7). -/
theorem sext_signExtend {n w : Nat} (h : n ≤ w) (v : BitVec n) : sext (v.signExtend w) = sext v := by
  simp [sext, BitVec.toInt_signExtend_of_le h]

/-! ### binary32 -/

theorem toBinary32_zero (e : Int) : toBinary32 0 e = 0x00000000#32 := by simp [toBinary32]

/-- The three fields of the encoding of a non-zero value (40_linear.md R84). -/
theorem toBinary32_ne_zero {m : Int} (h : m ≠ 0) (e : Int) :
    toBinary32 m e =
      BitVec.ofBool (decide (m < 0)) ++
        BitVec.ofInt 8 ((highestBit m.natAbs : Int) + e + 127) ++
        BitVec.ofNat 23 ((m.natAbs - 2 ^ highestBit m.natAbs) <<< (23 - highestBit m.natAbs)) := by
  simp [toBinary32, h]

/-! ### The assembler -/

/-- The assembler answers exactly for a line whose operands are in range, with its expansion's words. -/
theorem assemble_eq_some {l : AsmLine} {ws : List Word} :
    assemble l = some ws ↔ l.wellFormed = true ∧ ws = (expandLine l).map lineWord := by
  unfold assemble
  split_ifs with h <;> simp [h, eq_comm]

end Sys2Proof.Machine
end

