-- ==== Sys2Proof/Laws/PerInstr.lean ====
section
/-! SUPPORT. What holds of each command as syntax: where its word keeps its fields, and that its row of
the opcode map selects the word (30_encoding.md R61 to R63). -/

namespace Sys2Proof.Laws

/-- The word of a command holds its opcode and operands in OP, B and W, and its row selects it. -/
def EncodedFields.Statement (i : Instr) : Prop :=
  opField (encode i) = opcodeOf i.kind ∧ bField (encode i) = i.bOperand ∧
    wField (encode i) = i.wOperand ∧
    ∃ r ∈ commandTable, r.kind = i.kind ∧ r.selects (encode i) = true

/-- A row of the map selects the word of a command of its kind where its masked fields agree. -/
theorem encodedFields_of_row {i : Instr} {r : CommandRow} (hr : r ∈ commandTable)
    (hk : r.kind = i.kind)
    (hf : opcodeOf i.kind &&& opField r.mask = opField r.pattern ∧
      i.bOperand &&& bField r.mask = bField r.pattern ∧
      i.wOperand &&& wField r.mask = wField r.pattern) : EncodedFields.Statement i :=
  ⟨by simp, by simp, by simp, r, hr, hk, by rw [selects_iff]; simpa using hf⟩

theorem EncodedFields.nop : EncodedFields.Statement .nop :=
  encodedFields_of_row (r := ⟨.nop, 0x00#8, 0x00000000#32, 0xFFFFFFFF#32⟩) (by decide) rfl (by decide)

theorem EncodedFields.crcClr : EncodedFields.Statement .crcClr :=
  encodedFields_of_row (r := ⟨.crcClr, 0x01#8, 0x01000000#32, 0xFFFFFFFF#32⟩) (by decide) rfl
    (by decide)

theorem EncodedFields.crcByte (b : Byte) : EncodedFields.Statement (.crcByte b) :=
  encodedFields_of_row (r := ⟨.crcByte, 0x02#8, 0x02000000#32, 0xFF00FFFF#32⟩) (by decide) rfl
    ⟨show 0x02#8 &&& opField 0xFF00FFFF#32 = opField 0x02000000#32 by decide, BitVec.and_zero,
      show 0#16 &&& wField 0xFF00FFFF#32 = wField 0x02000000#32 by decide⟩

theorem EncodedFields.crcCheck (p : Byte) : EncodedFields.Statement (.crcCheck p) :=
  encodedFields_of_row (r := ⟨.crcCheck, 0x03#8, 0x03000000#32, 0xFF00FFFF#32⟩) (by decide) rfl
    ⟨show 0x03#8 &&& opField 0xFF00FFFF#32 = opField 0x03000000#32 by decide, BitVec.and_zero,
      show 0#16 &&& wField 0xFF00FFFF#32 = wField 0x03000000#32 by decide⟩

theorem EncodedFields.lin11 (w : Half) : EncodedFields.Statement (.lin11 w) :=
  encodedFields_of_row (r := ⟨.lin11, 0x10#8, 0x10000000#32, 0xFFFF0000#32⟩) (by decide) rfl
    ⟨show 0x10#8 &&& opField 0xFFFF0000#32 = opField 0x10000000#32 by decide,
      show 0#8 &&& bField 0xFFFF0000#32 = bField 0x10000000#32 by decide, BitVec.and_zero⟩

theorem EncodedFields.lin16 (b : Byte) (w : Half) : EncodedFields.Statement (.lin16 b w) :=
  encodedFields_of_row (r := ⟨.lin16, 0x11#8, 0x11000000#32, 0xFF000000#32⟩) (by decide) rfl
    ⟨show 0x11#8 &&& opField 0xFF000000#32 = opField 0x11000000#32 by decide, BitVec.and_zero,
      BitVec.and_zero⟩

theorem EncodedFields.statClr : EncodedFields.Statement .statClr :=
  encodedFields_of_row (r := ⟨.statClr, 0x20#8, 0x20000000#32, 0xFFFFFFFF#32⟩) (by decide) rfl
    (by decide)

end Sys2Proof.Laws
end

