-- ==== Sys2Proof/Laws/Step.lean ====
section
/-! SUPPORT. What a host access and a step can do, said once. -/

namespace Sys2Proof.Machine

variable {s t : State}

/-- An access the block runs passes the three checks of `handleAccess`. -/
theorem handleAccess_of_admits {host : Nat} {a : Access} (h : s.admits host a) :
    handleAccess host a s = performAccess a (s.bindHost host) := by
  obtain ⟨hhost, hsup, hk, hc⟩ := h
  have hadmit := (s.admitsHost_iff host).2 hhost
  have hok : s.block.holdsReservedStatus = false := by
    rw [Bool.eq_false_iff, Ne, Block.holdsReservedStatus_iff]; tauto
  simp [handleAccess, hadmit, hsup, hok]

/-- An access that answers a next state passed the three checks. -/
theorem admits_of_handleAccess {host : Nat} {a : Access} (h : handleAccess host a s = .next t) :
    s.admits host a := by
  unfold handleAccess at h
  split_ifs at h with h1 h2 h3
  rw [Block.holdsReservedStatus_iff, not_or] at h3
  exact ⟨(s.admitsHost_iff host).1 (by simpa using h1), by simpa using h2, h3.1, h3.2⟩

/-- A supported access is 4 bytes wide at a multiple of 4 (20_memory.md R42). -/
theorem Access.supported_memRead_iff (off : Offset) (n : Nat) :
    (Access.memRead off n).supported = true ↔ n = 4 ∧ off.toNat % 4 = 0 := by
  simp [Access.supported]

theorem Access.supported_memWrite_iff (off : Offset) (n : Nat) (v : Word) :
    (Access.memWrite off n v).supported = true ↔ n = 4 ∧ off.toNat % 4 = 0 := by
  simp [Access.supported]

/-- Whether an access is admitted does not depend on the events to come. -/
theorem State.admits_with_pending (host : Nat) (a : Access) (rest : List Event) :
    { s with pending := rest }.admits host a ↔ s.admits host a := Iff.rfl

/-- A step takes the next event and does what it says. -/
theorem step_of_cons {e : Event} {rest : List Event} (h : s.pending = e :: rest) :
    step s = handleEvent e { s with pending := rest } := by
  simp [step, s.takeEvent_cons h]

theorem step_of_nil (h : s.pending = []) : step s = .next s := by
  simp [step, s.takeEvent_nil h]

/-- Everything a step that answers a next state can have done. -/
theorem step_cases (h : step s = .next t) :
    (s.pending = [] ∧ t = s) ∨
    (∃ host off rest, s.pending = .access host (.memRead off 4) :: rest ∧
      s.admits host (.memRead off 4) ∧
      t = { s with pending := rest, boundHost := some host,
                   reads := s.reads ++ [hostReadValue off s.block] }) ∨
    (∃ host off v rest, s.pending = .access host (.memWrite off 4 v) :: rest ∧
      s.admits host (.memWrite off 4 v) ∧ off ≠ 0x00#8 ∧
      t = { s with pending := rest, boundHost := some host }) ∨
    (∃ host v rest, s.pending = .access host (.memWrite 0x00#8 4 v) :: rest ∧
      s.admits host (.memWrite 0x00#8 4 v) ∧
      commandWrite v { s with pending := rest, boundHost := some host } = .next t) ∨
    (∃ rest, s.pending = .reset :: rest ∧ t = { s with pending := rest, block := Block.reset }) ∨
    (∃ rest, s.pending = .powerLoss :: rest ∧ t = { s with pending := rest }.losePower) := by
  cases hp : s.pending with
  | nil =>
    rw [step_of_nil hp] at h
    exact .inl ⟨rfl, by simpa using h.symm⟩
  | cons e rest =>
    rw [step_of_cons hp] at h
    cases e with
    | access host a =>
      have hadm : s.admits host a := admits_of_handleAccess (s := { s with pending := rest }) h
      have hrun : performAccess a ({ s with pending := rest }.bindHost host) = .next t :=
        (handleAccess_of_admits (s := { s with pending := rest }) hadm).symm.trans h
      cases a with
      | memRead off n =>
        obtain ⟨rfl, -⟩ := (Access.supported_memRead_iff off n).1 hadm.2.1
        exact .inr (.inl ⟨host, off, rest, rfl, hadm, by simpa [performAccess, State.recordRead,
          State.bindHost] using hrun.symm⟩)
      | memWrite off n v =>
        obtain ⟨rfl, -⟩ := (Access.supported_memWrite_iff off n v).1 hadm.2.1
        by_cases hoff : off = 0x00#8
        · subst hoff
          exact .inr (.inr (.inr (.inl ⟨host, v, rest, rfl, hadm,
            by simpa [performAccess, State.bindHost] using hrun⟩)))
        · exact .inr (.inr (.inl ⟨host, off, v, rest, rfl, hadm, hoff,
            by simpa [performAccess, hoff, State.bindHost] using hrun.symm⟩))
    | reset =>
      exact .inr (.inr (.inr (.inr (.inl ⟨rest, rfl,
        by simpa [handleEvent, State.resetBlock] using h.symm⟩))))
    | resetDuring host a => simp [handleEvent] at h
    | powerLoss =>
      exact .inr (.inr (.inr (.inr (.inr ⟨rest, rfl, by simpa [handleEvent] using h.symm⟩))))

end Sys2Proof.Machine
end

