-- ==== Sys2Proof/Tests/Slice0.lean ====
section
/-! SUPPORT. The model's own tests: words written out from the opcode map, the spec's vectors
(95_test_vectors.md, named by their ids) on one step each, the assembler's range checks, and for every
statement of Certificates/Slice0/Obligations.lean a state and operands that meet its hypotheses. -/

namespace Sys2Proof.Tests

open Sys2Proof.Machine

/-! ### Helpers -/

/-- The block of an outcome that answers a next state. -/
def blockOf : Host.Outcome State Fault Refusal → Option Block
  | .next t => some t.block
  | .fault _ => none
  | .refused _ => none

/-- Why an outcome was refused. -/
def refusalOf : Host.Outcome State Fault Refusal → Option Refusal
  | .refused r => some r
  | .fault _ => none
  | .next _ => none

/-- The reset state with a CRC. -/
def withCrc (c : Byte) : State := State.reset.setCrc c

/-- The reset state with events to come. -/
def facing (es : List Event) : State := { State.reset with pending := es }

/-- Host 0 writes a word to CMD. -/
def cmd (v : Word) : Event := .access 0 (.memWrite 0x00#8 4 v)

/-! ### Well-formedness: the assembler rejects what is out of range (R68, R69) -/

theorem test_reject_byte : (CoreLine.crcByte 256).wellFormed = false := by decide
theorem test_reject_check : (CoreLine.crcCheck 256).wellFormed = false := by decide
theorem test_reject_lin11 : (CoreLine.lin11 65536).wellFormed = false := by decide
theorem test_reject_lin16_word : (CoreLine.lin16 65536 0).wellFormed = false := by decide
theorem test_reject_lin16_exponent : (CoreLine.lin16 0 256).wellFormed = false := by decide
theorem test_reject_word : (CoreLine.word 4294967296).wellFormed = false := by decide
theorem test_reject_lin11_lsb : assemble (.lin11Bytes 256 0) = none := by decide
theorem test_reject_lin11_msb : assemble (.lin11Bytes 0 256) = none := by decide
theorem test_reject_signed_exponent :
    assemble (.lin16Exp 0 16) = none ∧ assemble (.lin16Exp 0 (-17)) = none := by decide
theorem test_reject_lin16_signed_word : assemble (.lin16Exp 65536 0) = none := by decide
theorem test_reject_address :
    assemble (.pecAddrWrite 128) = none ∧ assemble (.pecAddrRead 128) = none := by decide
theorem test_reject_sequence : assemble (.crcSeq [0, 256]) = none := by decide
theorem test_reject_write_frame :
    assemble (.pecWriteFrame 128 0 []) = none ∧ assemble (.pecWriteFrame 0 256 []) = none ∧
      assemble (.pecWriteFrame 0 0 [256]) = none := by decide
theorem test_reject_read_command :
    assemble (.pecReadCommand 128 0) = none ∧ assemble (.pecReadCommand 0 256) = none := by decide
theorem test_reject_read_frame :
    assemble (.pecReadFrame 128 0 [] 0) = none ∧ assemble (.pecReadFrame 0 256 [] 0) = none ∧
      assemble (.pecReadFrame 0 0 [256] 0) = none ∧
      assemble (.pecReadFrame 0 0 [] 256) = none := by decide

/-- P1 of 95_test_vectors.md section 5: the words of `pec.wframe 0x40, 0x21, 0x00, 0x18`. -/
theorem test_write_frame_words :
    assemble (.pecWriteFrame 0x40 0x21 [0x00, 0x18]) =
      some [0x01000000#32, 0x02800000#32, 0x02210000#32, 0x02000000#32, 0x02180000#32] := by decide

/-- V-L2 and V-L10 in their pseudo spelling: `lin11.b 0x9C, 0xEF` and `lin16.e 0xFFFF, −3`. -/
theorem test_linear_pseudo_words :
    assemble (.lin11Bytes 0x9C 0xEF) = some [0x1000EF9C#32] ∧
      assemble (.lin16Exp 0xFFFF (-3)) = some [0x111DFFFF#32] := by decide

/-! ### Decoding, word by word, from the map of R63 -/

theorem test_decode_nop : decode 0x00000000#32 = .command .nop := by decide
theorem test_decode_crc_clr : decode 0x01000000#32 = .command .crcClr := by decide
theorem test_decode_crc_byte : decode 0x02A50000#32 = .command (.crcByte 0xA5#8) := by decide
theorem test_decode_crc_check : decode 0x03A50000#32 = .command (.crcCheck 0xA5#8) := by decide
theorem test_decode_lin11 : decode 0x1000EF9C#32 = .command (.lin11 0xEF9C#16) := by decide
theorem test_decode_lin16 : decode 0x11F78001#32 = .command (.lin16 0xF7#8 0x8001#16) := by decide
theorem test_decode_stat_clr : decode 0x20000000#32 = .command .statClr := by decide

/-- V-E1, V-E2, V-E3: the opcode is checked first. -/
theorem test_decode_unassigned :
    decode 0x12000000#32 = .illegal .unassignedOpcode ∧
      decode 0x04FFFFFF#32 = .illegal .unassignedOpcode ∧
      decode 0xFF000000#32 = .illegal .unassignedOpcode := by decide

/-- V-K2, V-C15, V-C13, V-C14, V-L-E1, V-K4. -/
theorem test_decode_reserved :
    decode 0x00000001#32 = .illegal .reservedNonzero ∧
      decode 0x01000100#32 = .illegal .reservedNonzero ∧
      decode 0x02320001#32 = .illegal .reservedNonzero ∧
      decode 0x03000001#32 = .illegal .reservedNonzero ∧
      decode 0x10010000#32 = .illegal .reservedNonzero ∧
      decode 0x20000001#32 = .illegal .reservedNonzero := by decide

theorem test_table_word : decodeTableWord 32 0x039F0000 = some (.crcCheck 0x9F#8) := by decide

/-! ### The commands on the spec's vectors -/

/-- V-K1. -/
theorem test_nop :
    blockOf (commandWrite 0x00000000#32 (withCrc 0x9F#8)) =
      some { (withCrc 0x9F#8).block with ci := 1 } := by decide

/-- V-C8. -/
theorem test_crc_clr :
    (blockOf (exec .crcClr (withCrc 0x9F#8))).map Block.crc = some 0x00#8 := by decide

/-- V-C5. -/
theorem test_crc_byte_high_bit :
    (blockOf (exec (.crcByte 0x80#8) State.reset)).map Block.crc = some 0x89#8 := by decide

/-- The second byte of V-C1's sequence: 0x32 on 0x97 gives 0x72. -/
theorem test_crc_byte_on_accumulator :
    (blockOf (exec (.crcByte 0x32#8) (withCrc 0x97#8))).map Block.crc = some 0x72#8 := by decide

/-- V-C9 and V-C12: a match clears PECERR. -/
theorem test_crc_check_match :
    (blockOf (exec (.crcCheck 0x9F#8) ((withCrc 0x9F#8).setPecerr true))).map
      (fun b => (b.pecerr, b.crc)) = some (false, 0x9F#8) := by decide

/-- V-C10: a mismatch in bit 0. -/
theorem test_crc_check_mismatch :
    (blockOf (exec (.crcCheck 0x9E#8) (withCrc 0x9F#8))).map
      (fun b => (b.pecerr, b.crc)) = some (true, 0x9F#8) := by decide

/-- V-L2: −12.5. -/
theorem test_lin11_negative :
    (blockOf (exec (.lin11 0xEF9C#16) State.reset)).map
      (fun b => (b.mant, b.exp, b.fval, b.rkind)) =
      some (0xFF9C#16, 0b11101#5, 0xC1480000#32, 0b01#2) := by decide

/-- V-L7: the smallest exponent and the most negative mantissa. -/
theorem test_lin11_extreme :
    (blockOf (exec (.lin11 0x8400#16) State.reset)).map
      (fun b => (b.mant, b.exp, b.fval)) = some (0xFC00#16, 0b10000#5, 0xBC800000#32) := by decide

/-- V-L18: bits 7:5 of B are ignored, and the mantissa is signed. -/
theorem test_lin16_mode_bits :
    (blockOf (exec (.lin16 0xFD#8 0xFFFF#16) State.reset)).map
      (fun b => (b.mant, b.exp, b.fval, b.rkind)) =
      some (0xFFFF#16, 0b11101#5, 0xBE000000#32, 0b10#2) := by decide

/-- V-L11: the largest value. -/
theorem test_lin16_largest :
    (blockOf (exec (.lin16 0x0F#8 0x7FFF#16) State.reset)).map Block.fval =
      some 0x4E7FFE00#32 := by decide

/-- V-K3: STATUS 0x26 with BADCMD 0x10010000 becomes 0x04 with 0. -/
theorem test_stat_clr :
    (blockOf (exec .statClr
      ((State.reset.setRkind 0b01#2).raiseIllegal .reservedNonzero 0x10010000#32))).map
      (fun b => (statusWord b, b.badcmd)) = some (0x00000004#32, 0x00000000#32) := by decide

/-- V-E1: STATUS after an unassigned opcode. -/
theorem test_illegal_record :
    (blockOf (commandWrite 0x12000000#32 State.reset)).map
      (fun b => (statusWord b, b.badcmd, b.ci)) =
      some (0x00000012#32, 0x12000000#32, 1) := by decide

/-- V-C1: the check value of "123456789", through the vector's intermediate values. -/
theorem test_crc8_check_value :
    crc8 [0x31#8, 0x32#8, 0x33#8, 0x34#8, 0x35#8, 0x36#8, 0x37#8, 0x38#8, 0x39#8] = 0xF4#8 := by
  have h1 : crcStep crcInit 0x31#8 = 0x97#8 := by decide
  have h2 : crcStep 0x97#8 0x32#8 = 0x72#8 := by decide
  have h3 : crcStep 0x72#8 0x33#8 = 0xC0#8 := by decide
  have h4 : crcStep 0xC0#8 0x34#8 = 0xC2#8 := by decide
  have h5 : crcStep 0xC2#8 0x35#8 = 0xCB#8 := by decide
  have h6 : crcStep 0xCB#8 0x36#8 = 0xFD#8 := by decide
  have h7 : crcStep 0xFD#8 0x37#8 = 0x78#8 := by decide
  have h8 : crcStep 0x78#8 0x38#8 = 0xC7#8 := by decide
  have h9 : crcStep 0xC7#8 0x39#8 = 0xF4#8 := by decide
  simp only [crc8, crcFold, h1, h2, h3, h4, h5, h6, h7, h8, h9]

/-! ### Steps -/

/-- A word placed by the opcode table's numbering runs as the first command after reset. -/
theorem test_step_runs_placed_word :
    (blockOf (step (State.reset.withFetchWord 32 0x02800000))).map (fun b => (b.crc, b.ci)) =
      some (0x89#8, 1) := by decide

/-- V-M1: a write to a read-only offset is ignored. -/
theorem test_step_ignored_write :
    blockOf (step (facing [.access 0 (.memWrite 0x08#8 4 0x12345678#32)])) = some Block.reset := by
  decide

/-- V-M4: an unaligned access is refused, and so is a 16-bit one. -/
theorem test_step_unsupported :
    refusalOf (step (facing [.access 0 (.memRead 0x02#8 4)])) = some .unsupportedAccess ∧
      refusalOf (step (facing [.access 0 (.memRead 0x04#8 2)])) = some .unsupportedAccess := by
  decide

/-- A second host is refused (20_memory.md R54). -/
theorem test_step_second_host :
    refusalOf (step { facing [.access 1 (.memRead 0x04#8 4)] with boundHost := some 0 }) =
      some .secondHost := by decide

/-! ### Witnesses: each statement's hypotheses are met -/

theorem witness_ResetSetsEveryRegister :
    (facing [.reset]).pending = .reset :: [] := rfl

theorem witness_StepKeepsInv :
    (facing [.reset]).Inv ∧ ∃ t, step (facing [.reset]) = .next t :=
  ⟨⟨⟨by decide, by decide, fun _ => ⟨rfl, rfl⟩, by decide,
      fun h => by simp [facing, State.reset, Block.reset] at h, fun _ => ⟨rfl, rfl⟩⟩,
    by simp [facing]⟩, _, rfl⟩

theorem witness_EncodeOfDecode : decode 0x11FFFFFF#32 = .command (.lin16 0xFF#8 0xFFFF#16) := by
  decide

theorem witness_DecodeSelectsOneRow :
    ∃ r ∈ commandTable, 0x20000000#32 &&& r.mask = r.pattern := by decide

theorem witness_Lin16IgnoresModeBits : (0x11F70200#32 : Word).extractLsb' 24 8 = 0x11#8 := by decide

theorem witness_PseudoLinesAssemble :
    (-16 ≤ (-16 : Int) ∧ (-16 : Int) ≤ 15) ∧ (-16 ≤ (15 : Int) ∧ (15 : Int) ≤ 15) := by decide

theorem witness_NopLeavesTheState :
    (0x00000001#32 : Word).extractLsb' 24 8 = 0x00#8 ∧
      (0x00000001#32 : Word).extractLsb' 0 16 ≠ 0#16 ∧
      (0x00010000#32 : Word).extractLsb' 24 8 = 0x00#8 ∧
      (0x00010000#32 : Word).extractLsb' 16 8 ≠ 0#8 := by decide

theorem witness_CrcClrClearsTheAccumulator :
    (0x01000100#32 : Word).extractLsb' 24 8 = 0x01#8 ∧
      (0x01000100#32 : Word).extractLsb' 0 16 ≠ 0#16 ∧
      (0x01800000#32 : Word).extractLsb' 24 8 = 0x01#8 ∧
      (0x01800000#32 : Word).extractLsb' 16 8 ≠ 0#8 := by decide

theorem witness_CrcByteFoldsOneByte :
    ((0x02FF0000#32 : Word).extractLsb' 24 8 = 0x02#8 ∧
        (0x02FF0000#32 : Word).extractLsb' 0 16 = 0#16) ∧
      (0x02320001#32 : Word).extractLsb' 24 8 = 0x02#8 ∧
      (0x02320001#32 : Word).extractLsb' 0 16 ≠ 0#16 := by decide

theorem witness_CrcCheckComparesOnly :
    (withCrc 0x9F#8).block.crc = 0x9F#8 ∧ (withCrc 0x9F#8).block.crc ≠ 0x9E#8 ∧
      ((0x039F0000#32 : Word).extractLsb' 24 8 = 0x03#8 ∧
        (0x039F0000#32 : Word).extractLsb' 0 16 = 0#16) ∧
      (0x03000001#32 : Word).extractLsb' 24 8 = 0x03#8 ∧
      (0x03000001#32 : Word).extractLsb' 0 16 ≠ 0#16 := by decide

theorem witness_Lin11DecodesTheWord :
    ((0x1000FFFF#32 : Word).extractLsb' 24 8 = 0x10#8 ∧
        (0x1000FFFF#32 : Word).extractLsb' 16 8 = 0#8) ∧
      (0x10010000#32 : Word).extractLsb' 24 8 = 0x10#8 ∧
      (0x10010000#32 : Word).extractLsb' 16 8 ≠ 0#8 := by decide

theorem witness_Lin16DecodesTheWord : (0x11FFFFFF#32 : Word).extractLsb' 24 8 = 0x11#8 := by decide

theorem witness_StatClrClearsTheRecord :
    (0x20000001#32 : Word).extractLsb' 24 8 = 0x20#8 ∧
      (0x20000001#32 : Word).extractLsb' 0 16 ≠ 0#16 ∧
      (0x20800000#32 : Word).extractLsb' 24 8 = 0x20#8 ∧
      (0x20800000#32 : Word).extractLsb' 16 8 ≠ 0#8 := by decide

theorem witness_IllegalWordWritesTheRecord :
    decode 0x04FFFFFF#32 = .illegal .unassignedOpcode ∧
      decode 0x02320001#32 = .illegal .reservedNonzero := by decide

/-- For each command a register offset it does not write, at the edge of the map. -/
theorem witness_CommandReadFrame :
    (0x00#8 : Offset) ∉ ([] : List Offset) ∧ (0x18#8 : Offset) ∉ [(0x08#8 : Offset)] ∧
      (0x08#8 : Offset) ∉ [(0x04#8 : Offset)] ∧
      (0x18#8 : Offset) ∉ [(0x04#8 : Offset), 0x0C#8, 0x10#8, 0x14#8] ∧
      (0x14#8 : Offset) ∉ [(0x04#8 : Offset), 0x18#8] := by decide

theorem witness_CrcStepIsLinear :
    crcStep 0xF4#8 0x01#8 = crcStep 0xF4#8 0x01#8 := rfl

theorem witness_SingleBitErrorsDetected : 0 < 8 ∧ 7 < 8 := by decide

theorem witness_CrcOfAWordStream :
    ∀ v ∈ [0x02310000#32, 0x02320001#32, 0xFF000000#32], v ≠ (0x01000000#32 : Word) := by
  simp

theorem witness_WriteFramePec :
    127 < 128 ∧ 255 < 256 ∧ ∀ p ∈ [0, 255], p < 256 := by decide

theorem witness_ReadCommandPec : 127 < 128 ∧ 255 < 256 := by decide

theorem witness_ReadFrameCheck :
    127 < 128 ∧ 255 < 256 ∧ (∀ d ∈ [0, 255], d < 256) ∧ 255 < 256 := by decide

/-- M at both ends of its range with E at both ends, and the `k` of each; and M = 0. -/
theorem witness_Binary32IsExact :
    (-32768 ≤ (-32768 : Int) ∧ -16 ≤ (-16 : Int) ∧ 2 ^ 15 ≤ (-32768 : Int).natAbs ∧
        (-32768 : Int).natAbs < 2 ^ (15 + 1)) ∧
      ((32767 : Int) ≤ 32767 ∧ (15 : Int) ≤ 15 ∧ 2 ^ 14 ≤ (32767 : Int).natAbs ∧
        (32767 : Int).natAbs < 2 ^ (14 + 1)) ∧
      -32768 ≤ (0 : Int) ∧ (0 : Int) ≤ 32767 := by decide

/-- A non-zero mantissa in each format, the most negative ones, and the listed ends of the ranges. -/
theorem witness_DecodedValueRanges :
    (0x8400#16 : Half).extractLsb' 0 11 ≠ 0#11 ∧ (0x8000#16 : Half) ≠ 0#16 ∧
      (Instr.lin11 0x7C00#16, (-33554432 : ℚ)) ∈
        [(Instr.lin11 0x7C00#16, (-33554432 : ℚ)), (.lin11 0x7BFF#16, 33521664)] :=
  ⟨by decide, by decide, List.mem_cons_self⟩

/-- PECERR changes at a check, at STAT_CLR and at a reset. -/
theorem witness_PecerrIsTheLatestCheck :
    (blockOf (step (facing [cmd 0x03010000#32]))).map Block.pecerr = some true ∧
      (blockOf (step ((facing [cmd 0x20000000#32]).setPecerr true))).map Block.pecerr =
        some false ∧
      (blockOf (step ((facing [.reset]).setPecerr true))).map Block.pecerr = some false := by decide

theorem witness_IllIsSticky :
    decode 0xFF000000#32 = .illegal .unassignedOpcode ∧ Instr.nop ≠ .statClr ∧
      ((facing [cmd 0x20000000#32]).setIll true).block.ill = true ∧
      (blockOf (step ((facing [cmd 0x20000000#32]).setIll true))).map Block.ill = some false := by
  decide

/-- RKIND changes at LIN11, at LIN16 and at a reset. -/
theorem witness_OnlyDecodersWriteResults :
    (blockOf (step (facing [cmd 0x1000EF9C#32]))).map Block.rkind = some 0b01#2 ∧
      (blockOf (step (facing [cmd 0x111DFFFF#32]))).map Block.rkind = some 0b10#2 ∧
      (blockOf (step ((facing [.reset]).setRkind 0b10#2))).map Block.rkind = some 0b00#2 := by decide

theorem witness_OnlyDecodersWriteResults_inv : Block.reset.Inv ∧ Block.reset.rkind = 0b00#2 :=
  ⟨⟨by decide, by decide, fun _ => ⟨rfl, rfl⟩, by decide,
    fun h => by simp [Block.reset] at h, fun _ => ⟨rfl, rfl⟩⟩, rfl⟩

theorem witness_RecordIsTheLatestIllegalWord :
    decode 0x10010000#32 = .illegal .reservedNonzero ∧
      ∀ w ∈ [0x10000BE8#32, 0x02330000#32], ∃ i, decode w = .command i ∧ i ≠ .statClr := by
  refine ⟨by decide, fun w hw => ?_⟩
  simp only [List.mem_cons, List.not_mem_nil, or_false] at hw
  rcases hw with rfl | rfl
  · exact ⟨.lin11 0x0BE8#16, by decide, by decide⟩
  · exact ⟨.crcByte 0x33#8, by decide, by decide⟩

/-- A block with an error record that meets the invariant: ILL = 1, the latest word 0xFF000000. -/
theorem witness_RecordIsTheLatestIllegalWord_inv :
    (State.reset.raiseIllegal .unassignedOpcode 0xFF000000#32).block.Inv ∧
      (State.reset.raiseIllegal .unassignedOpcode 0xFF000000#32).block.ill = true :=
  ⟨⟨by decide, by decide, fun _ => ⟨rfl, rfl⟩, by decide,
    fun _ => ⟨.unassignedOpcode, by decide, rfl⟩, fun h => by simp [State.raiseIllegal] at h⟩, rfl⟩

/-- `ci` after a reset, after a command word and after another access. -/
theorem witness_CiCountsCommandWords :
    (blockOf (step { facing [.reset] with block := { Block.reset with ci := 5 } })).map Block.ci =
        some 0 ∧
      (blockOf (step (facing [cmd 0xFFFFFFFF#32]))).map Block.ci = some 1 ∧
      (blockOf (step (facing [.access 0 (.memRead 0x04#8 4)]))).map Block.ci = some 0 := by decide

theorem witness_PartsDoNotInterfere :
    State.reset.block.crc = (State.reset.setMant 1#16).block.crc ∧
      State.reset.block.pecerr = (State.reset.setMant 1#16).block.pecerr ∧
      State.reset.block.rkind = (State.reset.setCrc 1#8).block.rkind := by decide

/-- An access that the block runs: the reset state admits host 0 at the first and the last offset. -/
theorem witness_admits (off : Offset) (h : off.toNat % 4 = 0) (v : Word) :
    State.reset.admits 0 (.memRead off 4) ∧ State.reset.admits 0 (.memWrite off 4 v) :=
  ⟨⟨.inl rfl, by simp [Access.supported, h], by decide, by decide⟩,
    ⟨.inl rfl, by simp [Access.supported, h], by decide, by decide⟩⟩

theorem witness_StepRunsTheDecodedCommand :
    (facing [cmd 0x02800000#32]).admits 0 (.memWrite 0x00#8 4 0x02800000#32) ∧
      decode 0x02800000#32 = .command (.crcByte 0x80#8) ∧
      decodeTableWord 32 0x02800000 = some (.crcByte 0x80#8) ∧
      State.reset.block.rkind ≠ 0b11#2 ∧ State.reset.block.cause ≠ 0b11#2 :=
  ⟨(witness_admits 0x00#8 (by decide) _).2, by decide, by decide, by decide, by decide⟩

theorem witness_HostReadReturnsTheRegister :
    (facing [.access 0 (.memRead 0xFC#8 4), .access 0 (.memRead 0xFC#8 4)]).admits 0
        (.memRead 0xFC#8 4) ∧
      0x1C ≤ (0x1C#8 : Offset).toNat ∧ 0x1C ≤ (0xFC#8 : Offset).toNat :=
  ⟨(witness_admits 0xFC#8 (by decide) 0#32).1, by decide, by decide⟩

theorem witness_HostWriteRunsOrIsIgnored :
    (facing [cmd 0xFFFFFFFF#32]).admits 0 (.memWrite 0x00#8 4 0xFFFFFFFF#32) ∧
      (facing [.access 0 (.memWrite 0x04#8 4 0#32)]).admits 0 (.memWrite 0x04#8 4 0#32) ∧
      (0x04#8 : Offset) ≠ 0x00#8 :=
  ⟨(witness_admits 0x00#8 (by decide) _).2, (witness_admits 0x04#8 (by decide) _).2, by decide⟩

/-- A wrong width at a good offset, and a good width at a wrong offset, for a read and for a write. -/
theorem witness_UnsupportedAccessIsRefused :
    ((facing [.access 0 (.memRead 0x04#8 2)]).pending = [.access 0 (.memRead 0x04#8 2)] ∧
        (2 ≠ 4 ∨ (0x04#8 : Offset).toNat % 4 ≠ 0)) ∧
      ((facing [.access 0 (.memWrite 0xFF#8 4 0#32)]).pending =
          [.access 0 (.memWrite 0xFF#8 4 0#32)] ∧
        (4 ≠ 4 ∨ (0xFF#8 : Offset).toNat % 4 ≠ 0)) ∧
      ∀ es, (facing es).boundHost = none := ⟨by decide, by decide, fun _ => rfl⟩

theorem witness_SecondHostIsRefused :
    ({ facing [.access 1 (.memRead 0x04#8 4)] with boundHost := some 0 } : State).boundHost =
        some 0 ∧ (1 : Nat) ≠ 0 ∧
      ∃ t, step { facing [.reset] with boundHost := some 0 } = .next t := ⟨rfl, by decide, _, rfl⟩

/-- A read is a step that is neither a command, a reset nor a loss of power. -/
theorem witness_BlockNeverActsAlone :
    (∃ t, step (facing [.access 0 (.memRead 0x04#8 4)]) = .next t) ∧
      ¬ (facing [.access 0 (.memRead 0x04#8 4)]).upheavalPending ∧
      (¬ ∃ v, (facing [.access 0 (.memRead 0x04#8 4)]).commandPending v) ∧
      State.reset.pending = [] := by
  refine ⟨⟨_, rfl⟩, ?_, ?_, rfl⟩
  · rintro ⟨e, rest, h, h' | h'⟩ <;> simp [facing] at h <;> simp [← h.1] at h'
  · rintro ⟨v, e, rest, h, h'⟩
    simp [facing] at h
    simp [← h.1, Event.commandWord?] at h'

theorem witness_EverySupportedAccessRuns :
    (facing [.access 0 (.memRead 0x00#8 4)]).admits 0 (.memRead 0x00#8 4) :=
  (witness_admits 0x00#8 (by decide) 0#32).1

theorem witness_ExcludedCasesAreRefused :
    (facing [.resetDuring 0 (.memRead 0x00#8 4)]).pending ≠ [] ∧
      ((facing [.access 0 (.memRead 0x00#8 4)]).setRkind 0b11#2).block.rkind = 0b11#2 ∧
      ((facing [.access 0 (.memRead 0x00#8 4)]).setCause 0b11#2).block.cause = 0b11#2 ∧
      (Access.memRead 0x00#8 4).supported = true ∧ State.reset.boundHost = none := by decide

theorem witness_ResetRecoversFromPowerLoss :
    (facing [.powerLoss, .reset]).pending = .powerLoss :: .reset :: [] := rfl

/-- The first address below the block and the first above it, for a base of 0x1000. -/
theorem witness_HostAddressesSelectOffsets :
    offsetOfAddress 0x1000 0x0FFF = none ∧ offsetOfAddress 0x1000 0x1100 = none ∧
      offsetOfAddress 0x1000 0x1000 = some 0x00#8 ∧ offsetOfAddress 0x1000 0x10FF = some 0xFF#8 := by
  decide

end Sys2Proof.Tests
end

/-! ## State: what can change PECERR, ILL and the decode results (10_state.md R26 to R28) -/

namespace Sys2Proof

/-- A word that decodes to a command is that command's own word: every legal word is `encode` of its
decode (30_encoding.md R63). -/
theorem eq_encode_of_decode {v : Word} {i : Instr} (h : decode v = .command i) : v = encode i := by
  suffices opField v = opcodeOf i.kind ∧ bField v = i.bOperand ∧ wField v = i.wOperand by
    obtain ⟨ho, hb, hw⟩ := this
    exact word_ext_fields (by simp [ho]) (by simp [hb]) (by simp [hw])
  rw [decode_eq_fields] at h
  split_ifs at h <;> cases h <;> simp_all [Instr.kind, opcodeOf, Instr.bOperand, Instr.wOperand]

theorem encode_statClr : encode .statClr = 0x20000000#32 := by decide

theorem encode_crcCheck (p : Byte) : encode (.crcCheck p) = 0x03#8 ++ p ++ 0#16 := rfl

theorem encode_lin11 (w : Half) : encode (.lin11 w) = 0x10#8 ++ 0x00#8 ++ w := rfl

theorem encode_lin16 (b : Byte) (w : Half) : encode (.lin16 b w) = 0x11#8 ++ b ++ w := rfl

end Sys2Proof

namespace Sys2Proof.Machine

/-- The registers a decode writes (10_state.md R28). -/
def Block.results (b : Block) : BitVec 16 × BitVec 5 × BitVec 32 × BitVec 2 :=
  (b.mant, b.exp, b.fval, b.rkind)

section

variable {s t : State} {i : Instr}

/-! ### Commands, register by register -/

/-- Only CRC_CHECK and STAT_CLR touch PECERR. -/
theorem exec_pecerr_cases (h : exec i s = .next t) :
    t.block.pecerr = s.block.pecerr ∨ i = .statClr ∨ ∃ p, i = .crcCheck p := by
  cases i with
  | statClr => exact .inr (.inl rfl)
  | crcCheck p => exact .inr (.inr ⟨p, rfl⟩)
  | nop | crcClr | crcByte | lin11 | lin16 => cases h; exact .inl rfl

/-- Only STAT_CLR touches ILL. -/
theorem exec_ill_of_ne_statClr (h : exec i s = .next t) (hi : i ≠ .statClr) :
    t.block.ill = s.block.ill := by
  cases i with
  | statClr => exact absurd rfl hi
  | nop | crcClr | crcByte | crcCheck | lin11 | lin16 => cases h; rfl

/-- Only the two decoders touch the results, and each leaves its own RKIND. -/
theorem exec_results_cases (h : exec i s = .next t) :
    t.block.results = s.block.results ∨
      (∃ w, i = .lin11 w ∧ t.block.rkind = rkindLin11) ∨
      ∃ b w, i = .lin16 b w ∧ t.block.rkind = rkindLin16 := by
  cases i with
  | lin11 w => cases h; exact .inr (.inl ⟨w, rfl, rfl⟩)
  | lin16 b w => cases h; exact .inr (.inr ⟨b, w, rfl, rfl⟩)
  | nop | crcClr | crcByte | crcCheck | statClr => cases h; exact .inl rfl

/-! ### What a step can do to the block -/

/-- A write to CMD runs the command whose word it is, or records an illegal word; then it counts. -/
theorem commandWrite_cases {v : Word} (h : commandWrite v s = .next t) :
    (∃ i r, v = encode i ∧ exec i s = .next r ∧ t = r.advanceCi) ∨
      ∃ c, decode v = .illegal c ∧ t = (s.raiseIllegal c v).advanceCi := by
  cases hd : decode v with
  | command i =>
    obtain ⟨b, hb, -⟩ := exec_changes_block_only s i
    have ht := (commandWrite_of_command s hd hb).symm.trans h
    exact .inl ⟨i, _, eq_encode_of_decode hd, hb, (Host.Outcome.next.inj ht).symm⟩
  | illegal c =>
    have ht := (commandWrite_of_illegal s hd).symm.trans h
    exact .inr ⟨c, rfl, (Host.Outcome.next.inj ht).symm⟩

theorem commandPending_of_pending {host : Nat} {v : Word} {rest : List Event}
    (h : s.pending = .access host (.memWrite 0x00#8 4 v) :: rest) : s.commandPending v :=
  ⟨_, rest, h, rfl⟩

/-- A step keeps the block, is a reset or a loss of power, runs a command, or records an illegal
word; `u`, in which the word is run, has the block of `s`. -/
theorem step_block_cases (h : step s = .next t) :
    t.block = s.block ∨ s.upheavalPending ∨
      (∃ (i : Instr) (u r : State), s.commandPending (encode i) ∧ exec i u = .next r ∧
        t = r.advanceCi ∧ u.block = s.block) ∨
      ∃ (v : Word) (c : IllegalCause) (u : State), s.commandPending v ∧ decode v = .illegal c ∧
        t = (u.raiseIllegal c v).advanceCi ∧ u.block = s.block := by
  obtain ⟨-, rfl⟩ | ⟨host, off, rest, -, -, rfl⟩ | ⟨host, off, v, rest, -, -, -, rfl⟩ |
    ⟨host, v, rest, hp, -, hw⟩ | ⟨rest, hp, -⟩ | ⟨rest, hp, -⟩ := step_cases h
  · exact .inl rfl
  · exact .inl rfl
  · exact .inl rfl
  · have hv := commandPending_of_pending hp
    obtain ⟨i, r, rfl, he, ht⟩ | ⟨c, hd, ht⟩ := commandWrite_cases hw
    · exact .inr (.inr (.inl ⟨i, _, r, hv, he, ht, rfl⟩))
    · exact .inr (.inr (.inr ⟨v, c, _, hv, hd, ht, rfl⟩))
  · exact .inr (.inl ⟨_, rest, hp, .inl rfl⟩)
  · exact .inr (.inl ⟨_, rest, hp, .inr rfl⟩)

/-! ### The three registers at a step -/

theorem step_pecerr_changed (h : step s = .next t) (hne : t.block.pecerr ≠ s.block.pecerr) :
    s.commandPending 0x20000000#32 ∨ s.upheavalPending ∨
      ∃ p : Byte, s.commandPending (0x03#8 ++ p ++ 0#16) := by
  obtain hb | hup | ⟨i, u, r, hv, he, rfl, hu⟩ | ⟨v, c, u, -, -, rfl, hu⟩ := step_block_cases h
  · exact absurd (congrArg Block.pecerr hb) hne
  · exact .inr (.inl hup)
  · obtain hkeep | rfl | ⟨p, rfl⟩ := exec_pecerr_cases he
    · exact absurd (hkeep.trans (congrArg Block.pecerr hu)) hne
    · exact .inl (encode_statClr ▸ hv)
    · exact .inr (.inr ⟨p, hv⟩)
  · exact absurd (congrArg Block.pecerr hu) hne

theorem step_ill_cleared (h : step s = .next t) (hs : s.block.ill = true)
    (ht : t.block.ill = false) : s.commandPending 0x20000000#32 ∨ s.upheavalPending := by
  obtain hb | hup | ⟨i, u, r, hv, he, rfl, hu⟩ | ⟨v, c, u, -, -, rfl, hu⟩ := step_block_cases h
  · simp [hb, hs] at ht
  · exact .inr hup
  · by_cases hi : i = .statClr
    · exact .inl (encode_statClr ▸ hi ▸ hv)
    · simp [exec_ill_of_ne_statClr he hi, hu, hs] at ht
  · simp [State.raiseIllegal_eq] at ht

theorem step_results_changed (h : step s = .next t) (hne : t.block.results ≠ s.block.results) :
    s.upheavalPending ∨
      (∃ w : Half, s.commandPending (0x10#8 ++ 0x00#8 ++ w) ∧ t.block.rkind = 0b01#2) ∨
      ∃ (b : Byte) (w : Half), s.commandPending (0x11#8 ++ b ++ w) ∧ t.block.rkind = 0b10#2 := by
  obtain hb | hup | ⟨i, u, r, hv, he, rfl, hu⟩ | ⟨v, c, u, -, -, rfl, hu⟩ := step_block_cases h
  · exact absurd (congrArg Block.results hb) hne
  · exact .inl hup
  · obtain hkeep | ⟨w, rfl, hk⟩ | ⟨b, w, rfl, hk⟩ := exec_results_cases he
    · exact absurd (hkeep.trans (congrArg Block.results hu)) hne
    · exact .inr (.inl ⟨w, hv, hk⟩)
    · exact .inr (.inr ⟨b, w, hv, hk⟩)
  · exact absurd (congrArg Block.results hu) hne

/-- Before any decode the three result registers read zero. -/
theorem hostReadValue_results_of_fresh {b : Block} (hinv : b.Inv) (hk : b.rkind = 0b00#2) :
    hostReadValue 0x0C#8 b = 0x00000000#32 ∧ hostReadValue 0x10#8 b = 0x00000000#32 ∧
      hostReadValue 0x14#8 b = 0x00000000#32 := by
  obtain ⟨hm, he⟩ := hinv.fresh hk
  have hf : b.fval = 0x00000000#32 := by rw [hinv.value, hm]; exact toBinary32_zero _
  simp [hm, he, hf, enc_sext]

end

/-- Settles O36: of the ways a step can touch the block, only CRC_CHECK, STAT_CLR, a reset and a
loss of power reach PECERR. -/
theorem pecerrIsTheLatestCheck : Obligations.PecerrIsTheLatestCheck :=
  ⟨fun p s => ⟨_, exec_crcCheck s p, (pecMismatch_iff s.block.crc p).trans ne_comm⟩,
    fun s => ⟨_, exec_statClr s, rfl⟩,
    fun _ _ => step_pecerr_changed⟩

/-- Settles O37: the error record sets ILL, and no command but STAT_CLR writes it. -/
theorem illIsSticky : Obligations.IllIsSticky := by
  refine ⟨fun v c s hd => ⟨_, commandWrite_of_illegal s hd, rfl⟩, fun i s hi => ?_,
    fun s => ⟨_, exec_statClr s, rfl⟩, fun _ _ => step_ill_cleared⟩
  obtain ⟨b, hb, -⟩ := exec_changes_block_only s i
  exact ⟨_, hb, exec_ill_of_ne_statClr hb hi⟩

/-- Settles O38: of the ways a step can touch the block, only the decoders, a reset and a loss of
power reach the results; the zero reads are the invariant's `fresh` and `value`. -/
theorem onlyDecodersWriteResults : Obligations.OnlyDecodersWriteResults :=
  ⟨fun w s => ⟨_, exec_lin11 s w, rfl⟩, fun b w s => ⟨_, exec_lin16 s b w, rfl⟩,
    fun _ _ => step_results_changed, fun _ => hostReadValue_results_of_fresh⟩

end Sys2Proof.Machine

/-! ## Linear: what LIN11 and LIN16 write, and their words (40_linear.md R85, R86) -/

namespace Sys2Proof

/-- With opcode 0x10 the field B alone decides: zero is LIN11, anything else is illegal (R133). -/
theorem decode_of_op_lin11 {v : Word} (ho : opField v = 0x10#8) :
    decode v =
      if bField v = 0#8 then .command (.lin11 (wField v)) else .illegal .reservedNonzero := by
  rw [decode_eq_fields]
  simp [ho]

/-- With opcode 0x11 every word is LIN16: no field is reserved (R66). -/
theorem decode_of_op_lin16 {v : Word} (ho : opField v = 0x11#8) :
    decode v = .command (.lin16 (bField v) (wField v)) := by
  rw [decode_eq_fields]
  simp [ho]

/-- A command's word as the assembler's table builds it: its fields shifted into place (R68). -/
theorem encode_eq_shift_or (i : Instr) :
    encode i = (opcodeOf i.kind).setWidth 32 <<< 24 ||| i.bOperand.setWidth 32 <<< 16 |||
      i.wOperand.setWidth 32 := by
  simpa [encode] using
    BitVec.setWidth_append_append_eq_shiftLeft_setWidth_or (w''' := 32)
      (b := opcodeOf i.kind) (b' := i.bOperand) (b'' := i.wOperand)

end Sys2Proof

namespace Sys2Proof.Machine

/-! ### Operands as slices of the command word -/

theorem lin11Mantissa_wField (v : Word) : lin11Mantissa (wField v) = v.extractLsb' 0 11 :=
  BitVec.extractLsb'_extractLsb'_of_le (by decide)

theorem lin11Exponent_wField (v : Word) : lin11Exponent (wField v) = v.extractLsb' 11 5 :=
  BitVec.extractLsb'_extractLsb'_of_le (by decide)

theorem lin16Exponent_bField (v : Word) : lin16Exponent (bField v) = v.extractLsb' 16 5 := by
  ext i hi
  simp [lin16Exponent, bField, show i < 8 by omega]

/-! ### Assembling a command's line -/

theorem lineOf_wellFormed (i : Instr) : (lineOf i).wellFormed = true := by
  cases i with
  | nop | crcClr | statClr => rfl
  | crcByte b | crcCheck b => exact decide_eq_true b.isLt
  | lin11 w => exact decide_eq_true w.isLt
  | lin16 b w =>
    exact Bool.and_eq_true_iff.mpr ⟨decide_eq_true w.isLt, decide_eq_true b.isLt⟩

theorem lineWord_lineOf (i : Instr) : lineWord (lineOf i) = encode i := by
  rw [encode_eq_shift_or]
  cases i <;> simp [lineOf, lineWord, Instr.kind, opcodeOf, Instr.bOperand, Instr.wOperand]

theorem assemble_lineOf (i : Instr) : assemble (.core (lineOf i)) = some [encode i] :=
  assemble_eq_some.mpr ⟨lineOf_wellFormed i, by simp [expandLine, lineWord_lineOf]⟩

/-! ### The decoders -/

/-- LIN11 field by field: widening the mantissa keeps its value, so FVAL is that of the 11-bit
field. -/
theorem exec_lin11_fields (s : State) (w : Half) :
    exec (.lin11 w) s = .next { s with block := { s.block with
      mant := (lin11Mantissa w).signExtend 16
      exp := lin11Exponent w
      fval := toBinary32 (sext (lin11Mantissa w)) (sext (lin11Exponent w))
      rkind := rkindLin11 } } := by
  rw [exec_lin11, State.writeResult_eq, enc_sext, sext_signExtend (by decide)]

/-- A legal LIN11 word written to CMD, in slices of the word. -/
theorem commandWrite_lin11 (s : State) {v : Word} (ho : opField v = 0x10#8)
    (hb : bField v = 0#8) :
    commandWrite v s = .next { s with block := { s.block with
      mant := (v.extractLsb' 0 11).signExtend 16
      exp := v.extractLsb' 11 5
      fval := toBinary32 (v.extractLsb' 0 11).toInt (v.extractLsb' 11 5).toInt
      rkind := 0b01#2
      ci := s.block.ci + 1 } } := by
  have hd : decode v = .command (.lin11 (wField v)) := by rw [decode_of_op_lin11 ho, if_pos hb]
  rw [commandWrite_of_command s hd (exec_lin11_fields s _), lin11Mantissa_wField,
    lin11Exponent_wField]
  rfl

/-- A LIN16 word written to CMD, in slices of the word. -/
theorem commandWrite_lin16 (s : State) {v : Word} (ho : opField v = 0x11#8) :
    commandWrite v s = .next { s with block := { s.block with
      mant := v.extractLsb' 0 16
      exp := v.extractLsb' 16 5
      fval := toBinary32 (v.extractLsb' 0 16).toInt (v.extractLsb' 16 5).toInt
      rkind := 0b10#2
      ci := s.block.ci + 1 } } := by
  rw [commandWrite_of_command s (decode_of_op_lin16 ho) (exec_lin16 s _ _),
    lin16Exponent_bField]
  rfl

/-- A LIN11 word with B ≠ 0 written to CMD writes the error record and nothing else (R85, R134). -/
theorem commandWrite_lin11_reserved (s : State) {v : Word} (ho : opField v = 0x10#8)
    (hb : bField v ≠ 0#8) :
    commandWrite v s = .next { s with block := { s.block with
      ill := true, cause := 2#2, badcmd := v, ci := s.block.ci + 1 } } :=
  commandWrite_of_illegal s (by rw [decode_of_op_lin11 ho, if_neg hb])

/-- Settles O16: LIN11's fields, its line, its two kinds of word, and −100 × 2^−3. -/
theorem lin11DecodesTheWord : Obligations.Lin11DecodesTheWord := by
  refine ⟨fun w s => exec_lin11_fields s w, fun w => assemble_lineOf (.lin11 w),
    fun _ s => commandWrite_lin11 s, fun _ s => commandWrite_lin11_reserved s, fun s => ?_⟩
  have hf : toBinary32 (-100) (-3) = 0xC1480000#32 := by decide
  rw [← hf]
  exact commandWrite_lin11 s (by decide) (by decide)

/-- Settles O17: LIN16's fields, its line, its words, all legal, and −1 × 2^−3. -/
theorem lin16DecodesTheWord : Obligations.Lin16DecodesTheWord := by
  refine ⟨fun b w s => exec_lin16 s b w, fun b w => assemble_lineOf (.lin16 b w),
    fun _ s => commandWrite_lin16 s, fun s => ?_⟩
  have hf : toBinary32 (-1) (-3) = 0xBE000000#32 := by decide
  rw [← hf]
  exact commandWrite_lin16 s (by decide)

end Sys2Proof.Machine

/-! ## PEC: the CRC commands, `crc8`, and the three PEC frames (41_pec.md R100 to R109) -/

namespace Sys2Proof

/-- A command's own word decodes to it: each field is the command's (30_encoding.md R63). -/
theorem decode_encode (i : Instr) : decode (encode i) = .command i := by
  rw [decode_eq_fields, opField_encode, bField_encode, wField_encode]
  cases i <;> simp [Instr.kind, opcodeOf, Instr.bOperand, Instr.wOperand]

theorem encode_crcClr : encode .crcClr = 0x01000000#32 := by decide

/-- With opcode 0x01 both B and W are reserved (R133). -/
theorem decode_of_op_crcClr {v : Word} (ho : opField v = 0x01#8) :
    decode v =
      if bField v = 0#8 ∧ wField v = 0#16 then .command .crcClr else .illegal .reservedNonzero := by
  rw [decode_eq_fields]
  simp [ho]

/-- With opcode 0x02 the field W alone decides (R133). -/
theorem decode_of_op_crcByte {v : Word} (ho : opField v = 0x02#8) :
    decode v =
      if wField v = 0#16 then .command (.crcByte (bField v)) else .illegal .reservedNonzero := by
  rw [decode_eq_fields]
  simp [ho]

/-- With opcode 0x03 the field W alone decides (R133). -/
theorem decode_of_op_crcCheck {v : Word} (ho : opField v = 0x03#8) :
    decode v =
      if wField v = 0#16 then .command (.crcCheck (bField v)) else .illegal .reservedNonzero := by
  rw [decode_eq_fields]
  simp [ho]

end Sys2Proof

namespace Sys2Proof.Machine

/-! ### The CRC function -/

/-- One round with bit 7 and the polynomial written out (R100). -/
theorem crcRound_eq (c : Byte) :
    crcRound c = if c.getLsbD 7 = true then (c <<< 1) ^^^ 0x07#8 else c <<< 1 := by
  rw [crcRound, BitVec.msb_eq_getLsbD_last]
  rfl

theorem crcRounds_eq_iterate (k : Nat) (c : Byte) : crcRounds k c = crcRound^[k] c := by
  induction k generalizing c with
  | zero => rfl
  | succ k ih => exact ih (crcRound c)

theorem crcFold_eq_foldl (c : Byte) (bs : List Byte) : crcFold c bs = bs.foldl crcStep c := by
  induction bs generalizing c with
  | nil => rfl
  | cons b bs ih => exact ih (crcStep c b)

/-- Folding the accumulator into itself leaves zero (R104's corner case). -/
theorem crcStep_self (c : Byte) : crcStep c c = 0x00#8 := by
  rw [crcStep, BitVec.xor_self, crcRounds_eight_eq_zero]

theorem pecMismatch_eq_decide (crc p : Byte) : pecMismatch crc p = decide (crc ≠ p) := by
  rw [Bool.eq_iff_iff, pecMismatch_iff, decide_eq_true_iff]

/-- Settles O22: `crcRounds` is `crcRound` iterated, and `crcFold` is the library's left fold. -/
theorem crcIsEightRoundsPerByte : Obligations.CrcIsEightRoundsPerByte := by
  refine ⟨fun c b => ?_, crcFold_eq_foldl crcInit, rfl⟩
  rw [← funext crcRound_eq]
  exact crcRounds_eq_iterate 8 (c ^^^ b)

/-! ### The CRC commands' words -/

/-- A command's own word written to CMD runs the command, then counts. -/
theorem commandWrite_encode {s t : State} {i : Instr} (h : exec i s = .next t) :
    commandWrite (encode i) s = .next t.advanceCi :=
  commandWrite_of_command s (decode_encode i) h

/-- An assigned opcode with a non-zero reserved field only writes the error record (R133, R134). -/
theorem commandWrite_of_reserved (s : State) {v : Word}
    (h : decode v = .illegal .reservedNonzero) :
    commandWrite v s = .next { s with block := { s.block with
      ill := true, cause := 2#2, badcmd := v, ci := s.block.ci + 1 } } :=
  commandWrite_of_illegal s h

/-- Settles O13: CRC_CLR writes the initial value; B or W not 0 is the decoder's other branch. -/
theorem crcClrClearsTheAccumulator : Obligations.CrcClrClearsTheAccumulator := by
  refine ⟨exec_crcClr, encode_crcClr ▸ assemble_lineOf .crcClr, fun s => ?_,
    fun v s ho hbw => commandWrite_of_reserved s
      ((decode_of_op_crcClr ho).trans (if_neg (not_and_or.mpr hbw)))⟩
  rw [← encode_crcClr]
  exact commandWrite_encode (exec_crcClr s)

/-- Settles O14: CRC_BYTE folds its byte; W decides whether a word with its opcode is legal. -/
theorem crcByteFoldsOneByte : Obligations.CrcByteFoldsOneByte :=
  ⟨fun b s => exec_crcByte s b, fun b => assemble_lineOf (.crcByte b),
    fun _ s ho hw =>
      commandWrite_of_command s ((decode_of_op_crcByte ho).trans (if_pos hw)) (exec_crcByte s _),
    fun _ s ho hw => commandWrite_of_reserved s ((decode_of_op_crcByte ho).trans (if_neg hw)),
    crcStep_self, by decide⟩

/-- CRC_CHECK with the comparison written as a proposition. -/
theorem exec_crcCheck_decide (s : State) (p : Byte) :
    exec (.crcCheck p) s =
      .next { s with block := { s.block with pecerr := decide (s.block.crc ≠ p) } } := by
  rw [exec_crcCheck, pecMismatch_eq_decide]

/-- Settles O15: CRC_CHECK writes PECERR alone; W decides whether a word with its opcode is legal. -/
theorem crcCheckComparesOnly : Obligations.CrcCheckComparesOnly := by
  refine ⟨fun p s h => ?_, fun p s h => ?_, fun p => assemble_lineOf (.crcCheck p),
    fun v s ho hw => commandWrite_of_command s ((decode_of_op_crcCheck ho).trans (if_pos hw))
      (exec_crcCheck_decide s _),
    fun v s ho hw => commandWrite_of_reserved s ((decode_of_op_crcCheck ho).trans (if_neg hw))⟩
  · rw [exec_crcCheck_decide, decide_eq_false (not_not.mpr h)]
  · rw [exec_crcCheck_decide, decide_eq_true h]

/-! ### Runs of the CRC commands' words -/

theorem runWords_cons {s t : State} {v : Word} (vs : List Word) (h : commandWrite v s = .next t) :
    runWords (v :: vs) s = runWords vs t := by
  simp [runWords, h]

/-- The words of a CRC_BYTE for each byte fold the bytes in order. -/
theorem runWords_crcBytes_append (bs : List Byte) (vs : List Word) (s : State) :
    runWords (bs.map (fun b => encode (.crcByte b)) ++ vs) s =
      runWords vs { s with block := { s.block with
        crc := crcFold s.block.crc bs, ci := s.block.ci + bs.length } } := by
  induction bs generalizing s with
  | nil => rfl
  | cons b bs ih =>
    rw [List.map_cons, List.cons_append, runWords_cons _ (commandWrite_encode (exec_crcByte s b)),
      ih]
    simp [State.advanceCi, crcFold, Nat.add_assoc, Nat.add_comm 1]

/-- The words of `crc.seq`: a CRC_CLR and a CRC_BYTE for each byte (30_encoding.md R69).  Each PEC frame
is one such run, with a CRC_CHECK after it for a read frame. -/
def crcSeqWords (bs : List Byte) : List Word :=
  encode .crcClr :: bs.map fun b => encode (.crcByte b)

/-- Whatever CRC was before, it is `crc8` of the bytes after the words of their `crc.seq`. -/
theorem runWords_crcSeqWords_append (bs : List Byte) (vs : List Word) (s : State) :
    runWords (crcSeqWords bs ++ vs) s =
      runWords vs { s with block := { s.block with
        crc := crc8 bs, ci := s.block.ci + (bs.length + 1) } } := by
  rw [crcSeqWords, List.cons_append, runWords_cons _ (commandWrite_encode (exec_crcClr s)),
    runWords_crcBytes_append]
  simp [State.advanceCi, crc8, crcInit, Nat.add_assoc, Nat.add_comm 1]

theorem runWords_crcSeqWords (bs : List Byte) (s : State) :
    runWords (crcSeqWords bs) s = .next { s with block := { s.block with
      crc := crc8 bs, ci := s.block.ci + (bs.length + 1) } } := by
  simpa [runWords] using runWords_crcSeqWords_append bs [] s

/-- A CRC_CHECK after the words of a `crc.seq` compares with the `crc8` of the bytes (R109). -/
theorem runWords_crcSeqWords_check (bs : List Byte) (p : Byte) (s : State) :
    runWords (crcSeqWords bs ++ [encode (.crcCheck p)]) s = .next { s with block := { s.block with
      crc := crc8 bs, pecerr := decide (crc8 bs ≠ p), ci := s.block.ci + (bs.length + 1) + 1 } } := by
  rw [runWords_crcSeqWords_append, runWords_cons _ (commandWrite_encode (exec_crcCheck_decide _ p))]
  rfl

/-! ### The PEC frames' lines -/

theorem lineWord_crcByte {n : Nat} (h : n < 256) :
    lineWord (.crcByte n) = encode (.crcByte (BitVec.ofNat 8 n)) := by
  rw [← lineWord_lineOf, lineOf, BitVec.toNat_ofNat, Nat.mod_eq_of_lt h]

theorem lineWord_crcCheck {n : Nat} (h : n < 256) :
    lineWord (.crcCheck n) = encode (.crcCheck (BitVec.ofNat 8 n)) := by
  rw [← lineWord_lineOf, lineOf, BitVec.toNat_ofNat, Nat.mod_eq_of_lt h]

/-- The lines of a `crc.seq` whose bytes are in range have the words of those bytes. -/
theorem map_lineWord_crcSeq {ns : List Nat} (h : ∀ n ∈ ns, n < 256) :
    (CoreLine.crcClr :: ns.map CoreLine.crcByte).map lineWord =
      crcSeqWords (ns.map (BitVec.ofNat 8)) := by
  rw [List.map_cons, List.map_map, crcSeqWords, List.map_map, ← lineWord_lineOf .crcClr]
  exact congrArg _ (List.map_congr_left fun n hn => lineWord_crcByte (h n hn))

/-- A 7-bit address with its direction bit fits a byte (30_encoding.md R69). -/
theorem addressByte_lt {a d : Nat} (ha : a < 128) (hd : d < 2) : (a <<< 1) ||| d < 256 :=
  Nat.or_lt_two_pow (n := 8) (by rw [Nat.shiftLeft_eq]; omega) (by omega)

theorem assemble_pecWriteFrame {a c : Nat} {payload : List Nat} (ha : a < 128) (hc : c < 256)
    (hp : ∀ p ∈ payload, p < 256) :
    assemble (.pecWriteFrame a c payload) =
      some (crcSeqWords ((((a <<< 1) ||| 0) :: c :: payload).map (BitVec.ofNat 8))) := by
  refine assemble_eq_some.mpr ⟨?_, (map_lineWord_crcSeq ?_).symm⟩
  · simpa [AsmLine.wellFormed, fitsAddress, fitsByte, ha, hc] using hp
  · simpa only [List.forall_mem_cons] using ⟨addressByte_lt ha (by decide), hc, hp⟩

theorem assemble_pecReadCommand {a c : Nat} (ha : a < 128) (hc : c < 256) :
    assemble (.pecReadCommand a c) =
      some (crcSeqWords ([(a <<< 1) ||| 0, c].map (BitVec.ofNat 8))) :=
  assemble_eq_some.mpr ⟨by simp [AsmLine.wellFormed, fitsAddress, fitsByte, ha, hc],
    (map_lineWord_crcSeq (List.forall_mem_cons.mpr
      ⟨addressByte_lt ha (by decide), List.forall_mem_singleton.mpr hc⟩)).symm⟩

theorem assemble_pecReadFrame {a c p : Nat} {received : List Nat} (ha : a < 128) (hc : c < 256)
    (hd : ∀ d ∈ received, d < 256) (hp : p < 256) :
    assemble (.pecReadFrame a c received p) =
      some (crcSeqWords
        ((((a <<< 1) ||| 0) :: c :: ((a <<< 1) ||| 1) :: received).map (BitVec.ofNat 8)) ++
        [encode (.crcCheck (BitVec.ofNat 8 p))]) := by
  refine assemble_eq_some.mpr ⟨?_, ?_⟩
  · simpa [AsmLine.wellFormed, fitsAddress, fitsByte, ha, hc, hp] using hd
  · rw [← lineWord_crcCheck hp, ← map_lineWord_crcSeq]
    · simp [expandLine]
    · simpa only [List.forall_mem_cons] using
        ⟨addressByte_lt ha (by decide), hc, addressByte_lt ha (by decide), hd⟩

/-- Settles O28: the line is a `crc.seq` of address byte, command and payload. -/
theorem writeFramePec : Obligations.WriteFramePec := by
  intro a c payload s ha hc hp
  refine ⟨_, _, assemble_pecWriteFrame ha hc hp, rfl, ?_, BitVec.ofNat_toNat 32 _⟩
  simp [runWords_crcSeqWords, Nat.add_assoc]

/-- Settles O29: the line is a `crc.seq` of address byte and command. -/
theorem readCommandPec : Obligations.ReadCommandPec :=
  fun _ _ s ha hc => ⟨_, assemble_pecReadCommand ha hc, runWords_crcSeqWords _ s⟩

/-- Settles O30: the line is a `crc.seq` of the frame's bytes and a CRC_CHECK of the received one. -/
theorem readFrameCheck : Obligations.ReadFrameCheck := by
  intro a c received p s ha hc hd hp
  refine ⟨_, _, assemble_pecReadFrame ha hc hd hp, rfl, ?_⟩
  simp [runWords_crcSeqWords_check, Nat.add_assoc]

end Sys2Proof.Machine

/-! ## Control: NOP and STAT_CLR (42_control.md R120, R121) -/

namespace Sys2Proof

theorem encode_nop : encode .nop = 0x00000000#32 := by decide

/-- NOP, CRC_CLR and STAT_CLR take no operand, so B and W are both reserved (R133). -/
theorem decode_reserved_of_operandless {v : Word} {i : Instr}
    (hi : i = .nop ∨ i = .crcClr ∨ i = .statClr) (ho : opField v = opcodeOf i.kind)
    (hbw : bField v ≠ 0#8 ∨ wField v ≠ 0#16) : decode v = .illegal .reservedNonzero := by
  have hlegal : ¬ (bField v = 0#8 ∧ wField v = 0#16) := not_and_or.mpr hbw
  rw [decode_eq_fields, ho]
  obtain rfl | rfl | rfl := hi <;> simp [Instr.kind, opcodeOf, hlegal]

end Sys2Proof

namespace Sys2Proof.Machine

/-- Settles O12: NOP's word, encoded, runs `exec` and counts; a reserved bit is the decoder's cause 2. -/
theorem nopLeavesTheState : Obligations.NopLeavesTheState := by
  refine ⟨exec_nop, encode_nop ▸ assemble_lineOf .nop, fun s => ?_,
    fun v s ho hbw => commandWrite_of_reserved s
      (decode_reserved_of_operandless (.inl rfl) ho hbw)⟩
  rw [← encode_nop]
  exact commandWrite_encode (exec_nop s)

/-- Settles O18: STAT_CLR writes the error record's fields and PECERR alone; a reserved bit is the
decoder's cause 2, so nothing is cleared. -/
theorem statClrClearsTheRecord : Obligations.StatClrClearsTheRecord := by
  refine ⟨exec_statClr, encode_statClr ▸ assemble_lineOf .statClr, fun s => ?_,
    fun v s ho hbw => commandWrite_of_reserved s
      (decode_reserved_of_operandless (.inr (.inr rfl)) ho hbw)⟩
  rw [← encode_statClr]
  exact commandWrite_encode (exec_statClr s)

end Sys2Proof.Machine

/-! ## Exceptions: which words are illegal, and the error record (60_exceptions.md R132 to R134) -/

namespace Sys2Proof

/-- Bits 23:0 are the fields B and W side by side (R61). -/
theorem low24_eq_zero_iff (v : Word) :
    v.extractLsb' 0 24 = 0#24 ↔ bField v = 0#8 ∧ wField v = 0#16 := by
  have hsplit : bField v ++ wField v = v.extractLsb' 0 24 :=
    BitVec.extractLsb'_append_extractLsb'_eq_extractLsb' rfl
  rw [← hsplit]
  constructor
  · intro h
    exact ⟨BitVec.extractLsb'_append_eq_left.symm.trans (congrArg (·.extractLsb' 16 8) h),
      BitVec.extractLsb'_append_eq_right.symm.trans (congrArg (·.extractLsb' 0 16) h)⟩
  · rintro ⟨hb, hw⟩
    rw [hb, hw]
    rfl

/-- The opcode map has rows for the seven assigned opcodes alone (R65). -/
theorem rowOf_eq_none_iff (op : Byte) :
    rowOf op = none ↔ op ∉ [0x00#8, 0x01#8, 0x02#8, 0x03#8, 0x10#8, 0x11#8, 0x20#8] := by
  revert op; decide

/-- R132: cause 1 is the decoder's answer where the opcode has no row, and only there. -/
theorem decode_eq_unassignedOpcode_iff (v : Word) :
    decode v = .illegal .unassignedOpcode ↔
      opField v ∉ [0x00#8, 0x01#8, 0x02#8, 0x03#8, 0x10#8, 0x11#8, 0x20#8] := by
  rw [← rowOf_eq_none_iff, decode]
  cases rowOf (opField v) with
  | none => simp
  | some r => cases hsel : r.selects v <;> simp [hsel]

/-- R133, in the fields of R61: cause 2 says that the opcode is assigned and a field it reserves is
not zero. -/
theorem decode_eq_reservedNonzero_iff (v : Word) :
    decode v = .illegal .reservedNonzero ↔
      (opField v ∈ [0x00#8, 0x01#8, 0x20#8] ∧ ¬ (bField v = 0#8 ∧ wField v = 0#16)) ∨
      (opField v ∈ [0x02#8, 0x03#8] ∧ wField v ≠ 0#16) ∨
      (opField v = 0x10#8 ∧ bField v ≠ 0#8) := by
  by_cases hop : opField v ∈ [0x00#8, 0x01#8, 0x02#8, 0x03#8, 0x10#8, 0x11#8, 0x20#8]
  · simp only [List.mem_cons, List.not_mem_nil, or_false] at hop
    obtain h | h | h | h | h | h | h := hop <;> simp [decode_eq_fields, h]
  · rw [(decode_eq_unassignedOpcode_iff v).mpr hop]
    simp only [List.mem_cons, List.not_mem_nil, or_false, not_or] at hop
    simp [hop]

/-- Settles O8: R132 and R133 in the fields, with bits 23:0 read as B and W. -/
theorem illegalWordsAndCauses : Obligations.IllegalWordsAndCauses := by
  refine fun v => ⟨decode_eq_unassignedOpcode_iff v, ?_⟩
  rw [ne_eq (v.extractLsb' 0 24), low24_eq_zero_iff]
  exact decode_eq_reservedNonzero_iff v

end Sys2Proof

namespace Sys2Proof.Machine

/-- The cause codes of R131, with the second cause as the other one. -/
theorem causeCode_eq_ite (c : IllegalCause) :
    causeCode c = if c = .unassignedOpcode then 1#2 else 2#2 := by
  cases c <;> rfl

/-- Settles O19: an illegal word runs `raiseIllegal` alone, and is then counted. -/
theorem illegalWordWritesTheRecord : Obligations.IllegalWordWritesTheRecord := by
  intro v c s hd
  rw [commandWrite_of_illegal s hd, State.raiseIllegal_eq, causeCode_eq_ite]
  rfl

end Sys2Proof.Machine

/-! ## Registers: what a command word does to the block, as a function of the block -/

namespace Sys2Proof.Machine

/-- The block after a command (10_state.md section 6). -/
def Block.afterCommand (b : Block) : Instr → Block
  | .nop => b
  | .crcClr => { b with crc := 0x00#8 }
  | .crcByte x => { b with crc := crcStep b.crc x }
  | .crcCheck p => { b with pecerr := decide (b.crc ≠ p) }
  | .lin11 w =>
    { b with
      mant := (lin11Mantissa w).signExtend 16
      exp := lin11Exponent w
      fval := toBinary32 (sext (lin11Mantissa w)) (sext (lin11Exponent w))
      rkind := rkindLin11 }
  | .lin16 x w =>
    { b with
      mant := w
      exp := lin16Exponent x
      fval := toBinary32 (sext w) (sext (lin16Exponent x))
      rkind := rkindLin16 }
  | .statClr => { b with pecerr := false, ill := false, cause := 0#2, badcmd := 0x00000000#32 }

/-- The block after a word is written to CMD: the command's effect or the error record, and one more
word counted (20_memory.md R45). -/
def Block.afterWord (b : Block) (v : Word) : Block :=
  match decode v with
  | .command i => { b.afterCommand i with ci := b.ci + 1 }
  | .illegal c => { b with ill := true, cause := causeCode c, badcmd := v, ci := b.ci + 1 }

theorem Block.afterWord_command (b : Block) {v : Word} {i : Instr} (h : decode v = .command i) :
    b.afterWord v = { b.afterCommand i with ci := b.ci + 1 } := by
  simp [Block.afterWord, h]

theorem Block.afterWord_illegal (b : Block) {v : Word} {c : IllegalCause}
    (h : decode v = .illegal c) :
    b.afterWord v =
      { b with ill := true, cause := causeCode c, badcmd := v, ci := b.ci + 1 } := by
  simp [Block.afterWord, h]

@[simp] theorem Block.afterCommand_ci (b : Block) (i : Instr) : (b.afterCommand i).ci = b.ci := by
  cases i <;> rfl

@[simp] theorem Block.afterWord_ci (b : Block) (v : Word) : (b.afterWord v).ci = b.ci + 1 := by
  cases h : decode v with
  | command i => rw [b.afterWord_command h]
  | illegal c => rw [b.afterWord_illegal h]

/-- No command stops, and none reads or writes anything but the block. -/
theorem exec_eq_afterCommand (i : Instr) (s : State) :
    exec i s = .next { s with block := s.block.afterCommand i } := by
  cases i with
  | crcCheck p => exact exec_crcCheck_decide s p
  | lin11 w => exact exec_lin11_fields s w
  | nop | crcClr | crcByte | lin16 | statClr => rfl

/-- No word written to CMD stops, and none reads or writes anything but the block. -/
theorem commandWrite_eq_afterWord (v : Word) (s : State) :
    commandWrite v s = .next { s with block := s.block.afterWord v } := by
  cases h : decode v with
  | command i =>
    rw [commandWrite_of_command s h (exec_eq_afterCommand i s), s.block.afterWord_command h,
      State.advanceCi, Block.afterCommand_ci]
  | illegal c =>
    rw [commandWrite_of_illegal s h, s.block.afterWord_illegal h]
    rfl

/-- Words written one after another act on the block one after another. -/
theorem runWords_eq_foldl (vs : List Word) (s : State) :
    runWords vs s = .next { s with block := vs.foldl Block.afterWord s.block } := by
  induction vs generalizing s with
  | nil => rfl
  | cons v vs ih => rw [runWords_cons vs (commandWrite_eq_afterWord v s), ih, List.foldl_cons]

/-- Settles O20: the write table is `Block.afterWord` register by register. -/
theorem writeTable : Obligations.WriteTable := by
  intro v s
  rw [commandWrite_eq_afterWord, Block.afterWord]
  cases decode v with
  | command i => cases i <;> rfl
  | illegal c => cases c <;> rfl

/-! ### What the host reads after a command (20_memory.md R41) -/

/-- Two blocks read alike at an offset where the register there is the same; by default it is the
same by definition. -/
theorem hostReadValue_congr {b b' : Block} {off : Offset}
    (hstatus : off = 0x04#8 → statusWord b = statusWord b' := by exact fun _ => rfl)
    (hcrc : off = 0x08#8 → b.crc = b'.crc := by exact fun _ => rfl)
    (hmant : off = 0x0C#8 → b.mant = b'.mant := by exact fun _ => rfl)
    (hexp : off = 0x10#8 → b.exp = b'.exp := by exact fun _ => rfl)
    (hfval : off = 0x14#8 → b.fval = b'.fval := by exact fun _ => rfl)
    (hbadcmd : off = 0x18#8 → b.badcmd = b'.badcmd := by exact fun _ => rfl) :
    hostReadValue off b = hostReadValue off b' := by
  unfold hostReadValue
  split_ifs with h0 h1 h2 h3 h4 h5 h6
  · rfl
  · exact hstatus h1
  · rw [hcrc h2]
  · rw [hmant h3]
  · rw [hexp h4]
  · exact hfval h5
  · exact hbadcmd h6
  · rfl

/-- Settles O21: every register a command does not name is kept by `Block.afterCommand`. -/
theorem commandReadFrame : Obligations.CommandReadFrame := by
  refine fun i s => ⟨_, exec_eq_afterCommand i s, fun off hoff => ?_⟩
  cases i with
  | nop => rfl
  | crcClr | crcByte =>
    have h8 : off ≠ 0x08#8 := by simpa using hoff
    exact hostReadValue_congr (hcrc := (absurd · h8))
  | crcCheck =>
    have h4 : off ≠ 0x04#8 := by simpa using hoff
    exact hostReadValue_congr (hstatus := (absurd · h4))
  | lin11 | lin16 =>
    obtain ⟨h4, hC, h10, h14⟩ : off ≠ 0x04#8 ∧ off ≠ 0x0C#8 ∧ off ≠ 0x10#8 ∧ off ≠ 0x14#8 := by
      simpa using hoff
    exact hostReadValue_congr (hstatus := (absurd · h4)) (hmant := (absurd · hC))
      (hexp := (absurd · h10)) (hfval := (absurd · h14))
  | statClr =>
    obtain ⟨h4, h18⟩ : off ≠ 0x04#8 ∧ off ≠ 0x18#8 := by simpa using hoff
    exact hostReadValue_congr (hstatus := (absurd · h4)) (hbadcmd := (absurd · h18))

end Sys2Proof.Machine

/-! ## Invariant: reset establishes it and every step keeps it (10_state.md sections 3 and 4) -/

namespace Sys2Proof.Machine

theorem Block.inv_reset : Block.reset.Inv where
  value := by decide
  kind := by decide
  fresh _ := ⟨rfl, rfl⟩
  range h := absurd h (by decide)
  record h := absurd h (by decide)
  clear _ := ⟨rfl, rfl⟩

/-- A linear11 mantissa is an 11-bit two's-complement integer (40_linear.md R80). -/
theorem lin11Mantissa_bounds (w : Half) :
    -1024 ≤ sext (lin11Mantissa w) ∧ sext (lin11Mantissa w) ≤ 1023 :=
  ⟨BitVec.le_toInt (lin11Mantissa w), Int.le_of_lt_add_one BitVec.toInt_lt⟩

theorem Block.Inv.afterCommand {b : Block} (h : b.Inv) (i : Instr) : (b.afterCommand i).Inv := by
  obtain ⟨hvalue, hkind, hfresh, hrange, hrecord, hclear⟩ := h
  cases i with
  | nop | crcClr | crcByte | crcCheck => exact ⟨hvalue, hkind, hfresh, hrange, hrecord, hclear⟩
  | lin11 w =>
    have hm : sext ((lin11Mantissa w).signExtend 16) = sext (lin11Mantissa w) :=
      sext_signExtend (by decide) _
    refine ⟨?_, (by decide : rkindLin11 ≠ rkindReserved),
      (absurd · (by decide : rkindLin11 ≠ 0b00#2)), fun _ => ?_, hrecord, hclear⟩
    · exact congrArg (toBinary32 · _) hm.symm
    · exact hm.symm ▸ lin11Mantissa_bounds w
  | lin16 x w =>
    exact ⟨rfl, (by decide : rkindLin16 ≠ rkindReserved),
      (absurd · (by decide : rkindLin16 ≠ 0b00#2)),
      (absurd · (by decide : rkindLin16 ≠ rkindLin11)), hrecord, hclear⟩
  | statClr =>
    exact ⟨hvalue, hkind, hfresh, hrange, nofun, fun _ => ⟨rfl, rfl⟩⟩

theorem Block.Inv.afterWord {b : Block} (h : b.Inv) (v : Word) : (b.afterWord v).Inv := by
  cases hd : decode v with
  | command i =>
    obtain ⟨hvalue, hkind, hfresh, hrange, hrecord, hclear⟩ := h.afterCommand i
    rw [b.afterWord_command hd]
    exact ⟨hvalue, hkind, hfresh, hrange, hrecord, hclear⟩
  | illegal c =>
    obtain ⟨hvalue, hkind, hfresh, hrange, -, -⟩ := h
    rw [b.afterWord_illegal hd]
    exact ⟨hvalue, hkind, hfresh, hrange, fun _ => ⟨c, hd, rfl⟩, nofun⟩

/-- Of the ways a step can answer, only a loss of power leaves a block that nothing is known of. -/
theorem step_keeps_block_inv {s t : State} (h : step s = .next t) (hs : s.Inv) : t.block.Inv := by
  obtain ⟨hblock, hpowered⟩ := hs
  obtain ⟨-, rfl⟩ | ⟨host, off, rest, -, -, rfl⟩ | ⟨host, off, v, rest, -, -, -, rfl⟩ |
    ⟨host, v, rest, -, -, hw⟩ | ⟨rest, -, rfl⟩ | ⟨rest, hp, -⟩ := step_cases h
  · exact hblock
  · exact hblock
  · exact hblock
  · rw [commandWrite_eq_afterWord] at hw
    cases hw
    exact hblock.afterWord v
  · exact Block.inv_reset
  · exact absurd (hp ▸ List.mem_cons_self) hpowered

/-- A step takes the next event, if there is one, and leaves the others. -/
theorem step_pending_suffix {s t : State} (h : step s = .next t) : t.pending <:+ s.pending := by
  obtain ⟨-, rfl⟩ | ⟨host, off, rest, hp, -, rfl⟩ | ⟨host, off, v, rest, hp, -, -, rfl⟩ |
    ⟨host, v, rest, hp, -, hw⟩ | ⟨rest, hp, rfl⟩ | ⟨rest, hp, rfl⟩ := step_cases h
  · exact List.suffix_rfl
  · exact hp ▸ List.suffix_cons _ rest
  · exact hp ▸ List.suffix_cons _ rest
  · rw [commandWrite_eq_afterWord] at hw
    cases hw
    exact hp ▸ List.suffix_cons _ rest
  · exact hp ▸ List.suffix_cons _ rest
  · exact hp ▸ List.suffix_cons _ rest

/-- Settles O2: every register is zero, and no event is to come. -/
theorem resetStateMeetsInv : Obligations.ResetStateMeetsInv :=
  ⟨Block.inv_reset, List.not_mem_nil⟩

/-- Settles O3: the block's invariant is kept by every word and set up by reset, and a step adds no
event to those to come. -/
theorem stepKeepsInv : Obligations.StepKeepsInv := fun _ _ hs h =>
  ⟨step_keeps_block_inv h hs, fun hloss => hs.powered ((step_pending_suffix h).subset hloss)⟩

end Sys2Proof.Machine

/-! ## Encoding: the decoder, the encoder and the opcode map (30_encoding.md R61 to R66) -/

namespace Sys2Proof

/-- Settles O4: the fields of a command's word are the command's. -/
theorem decodeOfEncode : Obligations.DecodeOfEncode := decode_encode

/-- Settles O5: a legal word has the fields of its command's word. -/
theorem encodeOfDecode : Obligations.EncodeOfDecode := fun _ _ h => (eq_encode_of_decode h).symm

/-! ### The rows of the opcode map -/

/-- Each row's mask covers OP, its pattern has the row's opcode there, which finds the row. -/
theorem commandTable_op : ∀ r ∈ commandTable,
    opField r.mask = 0xFF#8 ∧ opField r.pattern = r.op ∧ rowOf r.op = some r := by
  decide

/-- A row that selects a word is the one the word's opcode names. -/
theorem rowOf_eq_some_of_selects {r : CommandRow} {v : Word} (hr : r ∈ commandTable)
    (h : r.selects v = true) : rowOf (opField v) = some r := by
  obtain ⟨hmask, hpattern, hrow⟩ := commandTable_op r hr
  obtain ⟨hop, -, -⟩ := (selects_iff r v).1 h
  rw [hmask, and_ones8, hpattern] at hop
  rw [hop, hrow]

theorem rowOf_mem {op : Byte} {r : CommandRow} (h : rowOf op = some r) : r ∈ commandTable :=
  List.mem_of_find?_eq_some h

/-- A word is a command exactly where a row selects it (R63). -/
theorem decode_command_iff_selected (v : Word) :
    (∃ i, decode v = .command i) ↔ ∃ r ∈ commandTable, r.selects v = true := by
  constructor
  · rintro ⟨i, hi⟩
    unfold decode at hi
    cases hrow : rowOf (opField v) with
    | none => simp [hrow] at hi
    | some r =>
      refine ⟨r, rowOf_mem hrow, ?_⟩
      by_contra hsel
      simp [hrow, hsel] at hi
  · rintro ⟨r, hr, hsel⟩
    exact ⟨buildCommand r.kind v, by simp [decode, rowOf_eq_some_of_selects hr hsel, hsel]⟩

/-- Settles O6: a selecting row is the one found by the word's opcode, so there is at most one. -/
theorem decodeSelectsOneRow : Obligations.DecodeSelectsOneRow := by
  refine fun v => ⟨?_, fun r hr r' hr' h h' => ?_⟩
  · simpa [CommandRow.selects] using decode_command_iff_selected v
  · have hrow := rowOf_eq_some_of_selects hr (beq_iff_eq.mpr h)
    have hrow' := rowOf_eq_some_of_selects hr' (beq_iff_eq.mpr h')
    exact Option.some.inj (hrow.symm.trans hrow')

/-- Settles O7: the decoder computes on each of the nine words. -/
theorem sampleWordsDecode : Obligations.SampleWordsDecode := by
  unfold Obligations.SampleWordsDecode
  decide

end Sys2Proof

namespace Sys2Proof.Machine

/-- Settles O9: LIN16's effect depends on bits 20:0 alone, which the mask keeps. -/
theorem lin16IgnoresModeBits : Obligations.Lin16IgnoresModeBits := by
  intro v s ho
  have hmasked : opField (v &&& 0xFF1FFFFF#32) = 0x11#8 := by
    rw [opField_and, show opField v = 0x11#8 from ho]
    decide
  have hmant : (v &&& 0xFF1FFFFF#32).extractLsb' 0 16 = v.extractLsb' 0 16 := by
    rw [BitVec.extractLsb'_and]
    exact BitVec.and_allOnes
  have hexp : (v &&& 0xFF1FFFFF#32).extractLsb' 16 5 = v.extractLsb' 16 5 := by
    rw [BitVec.extractLsb'_and]
    exact BitVec.and_allOnes
  rw [commandWrite_lin16 s hmasked, commandWrite_lin16 s ho, hmant, hexp]

end Sys2Proof.Machine

/-! ## Assembler: what each line assembles to, and where it is rejected (30_encoding.md R68, R69) -/

namespace Sys2Proof.Machine

/-- Settles O10: a legal word is printed as its command's line, an illegal one as `.word`. -/
theorem assembleOfDisassemble : Obligations.AssembleOfDisassemble := by
  refine ⟨fun v => ?_, fun i => ⟨lineOf_wellFormed i, lineWord_lineOf i⟩⟩
  cases h : decode v with
  | command i =>
    rw [disassemble, h, eq_encode_of_decode h]
    exact assemble_lineOf i
  | illegal c =>
    rw [disassemble, h]
    exact assemble_eq_some.mpr
      ⟨decide_eq_true v.isLt, by simp [expandLine, lineWord, BitVec.ofNat_toNat]⟩

/-! ### Rejection -/

theorem assemble_eq_none {l : AsmLine} : assemble l = none ↔ l.wellFormed = false := by
  simp [assemble]

theorem fitsByte_eq_false {n : Nat} : fitsByte n = false ↔ 256 ≤ n := by simp [fitsByte]

theorem fitsHalf_eq_false {n : Nat} : fitsHalf n = false ↔ 65536 ≤ n := by simp [fitsHalf]

theorem fitsAddress_eq_false {n : Nat} : fitsAddress n = false ↔ 128 ≤ n := by simp [fitsAddress]

theorem fitsExponent_eq_false {e : Int} : fitsExponent e = false ↔ e ≤ -17 ∨ 16 ≤ e := by
  rw [fitsExponent, decide_eq_false_iff_not]
  omega

theorem all_fitsByte_eq_false {ns : List Nat} :
    ns.all fitsByte = false ↔ ∃ n ∈ ns, 256 ≤ n := by
  simp [fitsByte_eq_false]

/-- Settles O53: each line is the conjunction of its operands' range checks. -/
theorem coreAndFrameLinesRejectOutOfRange : Obligations.CoreAndFrameLinesRejectOutOfRange := by
  unfold Obligations.CoreAndFrameLinesRejectOutOfRange
  simp only [assemble_eq_none, AsmLine.wellFormed, CoreLine.wellFormed, Bool.and_eq_false_iff,
    fitsByte_eq_false, fitsHalf_eq_false, fitsAddress_eq_false, all_fitsByte_eq_false,
    decide_eq_false_iff_not, not_lt, or_assoc, implies_true, and_self]

/-! ### The pseudo-instructions' words -/

/-- `lin11.b`: the low byte comes first (20_memory.md R46). -/
theorem assemble_lin11Bytes (lsb msb : Byte) :
    assemble (.lin11Bytes lsb.toNat msb.toNat) = some [encode (.lin11 (msb ++ lsb))] := by
  refine assemble_eq_some.mpr ⟨?_, ?_⟩
  · exact Bool.and_eq_true_iff.mpr ⟨decide_eq_true lsb.isLt, decide_eq_true msb.isLt⟩
  · rw [← lineWord_lineOf, lineOf, BitVec.toNat_append]
    rfl

/-- `lin16.e`: the byte is the exponent in two's complement, zero-extended. -/
theorem assemble_lin16Exp (w : Half) {e : Int} (hlo : -16 ≤ e) (hhi : e ≤ 15) :
    assemble (.lin16Exp w.toNat e) = some [encode (.lin16 ((enc 5 e).setWidth 8) w)] := by
  refine assemble_eq_some.mpr ⟨?_, ?_⟩
  · exact Bool.and_eq_true_iff.mpr ⟨decide_eq_true w.isLt, decide_eq_true ⟨hlo, hhi⟩⟩
  · rw [← lineWord_lineOf, lineOf, BitVec.toNat_setWidth_of_le (by decide)]
    rfl

/-- The five bits of an exponent in range hold it. -/
theorem toInt_enc_exponent {e : Int} (hlo : -16 ≤ e) (hhi : e ≤ 15) : (enc 5 e).toInt = e :=
  BitVec.toInt_ofInt_eq_self (by decide) (by omega) (by omega)

theorem extractLsb'_exponent_setWidth (x : BitVec 5) : (x.setWidth 8).extractLsb' 0 5 = x := by
  ext i hi
  simp [show i < 8 by omega, BitVec.getLsbD_eq_getElem hi]

/-- A PEC address line: the byte is the address with the direction in bit 0. -/
theorem lineWord_addressByte (a : BitVec 7) (d : BitVec 1) :
    lineWord (.crcByte ((a.toNat <<< 1) ||| d.toNat)) = encode (.crcByte (a ++ d)) := by
  rw [← lineWord_lineOf, lineOf, BitVec.toNat_append]

theorem assemble_crcSeq (bs : List Byte) :
    assemble (.crcSeq (bs.map BitVec.toNat)) = some (crcSeqWords bs) := by
  have hrange : ∀ n ∈ bs.map BitVec.toNat, n < 256 := by
    simpa using fun b _ => b.isLt
  refine assemble_eq_some.mpr ⟨by simpa [AsmLine.wellFormed, fitsByte] using hrange, ?_⟩
  rw [expandLine, map_lineWord_crcSeq hrange, List.map_map,
    List.map_id'' fun b => by simp]

/-- Settles O11: the words of each pseudo-instruction, and its operands' range checks. -/
theorem pseudoLinesAssemble : Obligations.PseudoLinesAssemble := by
  refine ⟨assemble_lin11Bytes, ?_, fun w e hlo hhi =>
    ⟨_, assemble_lin16Exp w hlo hhi, ?_, ?_⟩, ?_, fun a => ⟨?_, ?_⟩, ?_, assemble_crcSeq, ?_⟩
  · simp only [assemble_eq_none, AsmLine.wellFormed, Bool.and_eq_false_iff, fitsByte_eq_false,
      implies_true]
  · rw [extractLsb'_exponent_setWidth]
    exact toInt_enc_exponent hlo hhi
  · ext i
    simp
  · simp only [assemble_eq_none, AsmLine.wellFormed, Bool.and_eq_false_iff, fitsHalf_eq_false,
      fitsExponent_eq_false, implies_true]
  · exact assemble_eq_some.mpr
      ⟨decide_eq_true a.isLt, congrArg (fun w => [w]) (lineWord_addressByte a 0#1).symm⟩
  · exact assemble_eq_some.mpr
      ⟨decide_eq_true a.isLt, congrArg (fun w => [w]) (lineWord_addressByte a 1#1).symm⟩
  · simp only [assemble_eq_none, AsmLine.wellFormed, fitsAddress_eq_false, and_self, implies_true]
  · simp only [assemble_eq_none, AsmLine.wellFormed, all_fitsByte_eq_false, implies_true]

end Sys2Proof.Machine

/-! ## CRC: the byte update is serial, linear and injective; residue and single-bit errors
(41_pec.md R100 to R102, R110, R111) -/

namespace Sys2Proof.Machine

/-! ### The bit-serial form -/

/-- Feeding one bit is a round, with the polynomial XORed in where the bit is set. -/
theorem crcSerialBit_eq (c : Byte) (bit : Bool) :
    crcSerialBit c bit = crcRound c ^^^ if bit then crcPoly else 0#8 := by
  cases hc : c.msb <;> cases bit <;> simp [crcSerialBit, crcRound, hc]

/-- A round of a byte shifted so that bit `k` stands in front feeds bit `k` out. -/
theorem crcRound_shiftLeft (b : Byte) {k : Nat} (hk : k < 8) :
    crcRound (b <<< (7 - k)) = b <<< (8 - k) ^^^ if b.getLsbD k then crcPoly else 0#8 := by
  have hmsb : (b <<< (7 - k)).msb = b.getLsbD k := by
    rw [BitVec.msb_eq_getLsbD_last, BitVec.getLsbD_shiftLeft]
    simp [show ¬ 7 < 7 - k by omega, show 7 - (7 - k) = k by omega]
  rw [crcRound, hmsb, ← BitVec.shiftLeft_add, show 7 - k + 1 = 8 - k by omega]
  cases b.getLsbD k <;> simp

/-- Feeding the low `k` bits is `k` rounds after XORing them into the top of the accumulator. -/
theorem crcSerialBits_eq_crcRounds (b : Byte) {k : Nat} (hk : k ≤ 8) (c : Byte) :
    crcSerialBits b k c = crcRounds k (c ^^^ b <<< (8 - k)) := by
  induction k generalizing c with
  | zero => simp [crcSerialBits, crcRounds]
  | succ k ih =>
    have hround : crcSerialBit c (b.getLsbD k) ^^^ b <<< (8 - k) =
        crcRound (c ^^^ b <<< (7 - k)) := by
      rw [crcRound_xor, crcRound_shiftLeft b hk, crcSerialBit_eq, BitVec.xor_assoc,
        BitVec.xor_comm (b <<< (8 - k))]
    rw [crcSerialBits, ih (by omega), hround, show 8 - (k + 1) = 7 - k by omega, crcRounds]

/-- Settles O23: the serial form over all eight bits. -/
theorem crcStepIsBitSerial : Obligations.CrcStepIsBitSerial := fun c b => by
  rw [crcSerial, crcSerialBits_eq_crcRounds b le_rfl, Nat.sub_self, BitVec.shiftLeft_zero, crcStep]

/-! ### Linearity and injectivity -/

theorem crcStep_xor (c c' b b' : Byte) :
    crcStep (c ^^^ c') (b ^^^ b') = crcStep c b ^^^ crcStep c' b' := by
  rw [crcStep, crcStep, crcStep, ← crcRounds_xor]
  congr 1
  ac_rfl

theorem crcStep_eq_zero_iff (c b : Byte) : crcStep c b = 0x00#8 ↔ c = b := by
  rw [crcStep, crcRounds_eight_eq_zero, BitVec.xor_eq_zero_iff]

/-- The byte update is the XOR of its arguments, sent through an injection. -/
theorem crcStep_eq_iff (c c' b b' : Byte) :
    crcStep c b = crcStep c' b' ↔ c ^^^ c' = b ^^^ b' := by
  rw [← BitVec.xor_eq_zero_iff, ← crcStep_xor, crcStep_eq_zero_iff]

theorem crcStep_left_injective {c c' b : Byte} (h : crcStep c b = crcStep c' b) : c = c' := by
  rwa [crcStep_eq_iff, BitVec.xor_self, BitVec.xor_eq_zero_iff] at h

theorem crcStep_right_injective {c b b' : Byte} (h : crcStep c b = crcStep c b') : b = b' := by
  rwa [crcStep_eq_iff, BitVec.xor_self, eq_comm, BitVec.xor_eq_zero_iff] at h

/-- Settles O24: the eight rounds are linear and send only zero to zero. -/
theorem crcStepIsLinear : Obligations.CrcStepIsLinear :=
  ⟨crcStep_xor, fun _ _ _ => crcStep_left_injective, fun _ _ _ => crcStep_right_injective⟩

/-! ### Residue and single-bit errors -/

theorem crc8_append (xs ys : List Byte) : crc8 (xs ++ ys) = crcFold (crc8 xs) ys :=
  crcFold_append crcInit xs ys

/-- Settles O25: folding in a byte leaves zero exactly where it is the accumulator. -/
theorem crcResidueIsZero : Obligations.CrcResidueIsZero := by
  refine ⟨fun bs => ?_, fun p s => ⟨_, _, exec_crcCheck s p, exec_crcByte s p, ?_⟩⟩
  · rw [crc8_append]
    exact crcStep_self (crc8 bs)
  · simp [crcStep_eq_zero_iff, pecMismatch_eq_decide]

/-- Different accumulators stay different over any bytes. -/
theorem crcFold_injective {c d : Byte} {bs : List Byte} (h : crcFold c bs = crcFold d bs) :
    c = d := by
  induction bs generalizing c d with
  | nil => exact h
  | cons b bs ih => exact crcStep_left_injective (ih h)

/-- Flipping a bit of a byte changes the byte. -/
theorem xor_twoPow_ne (b : Byte) {k : Nat} (hk : k < 8) : b ^^^ 1#8 <<< k ≠ b := by
  intro h
  have hbit := congrArg (·.getLsbD k) h
  simp [hk] at hbit

/-- Settles O26: the flipped byte moves the accumulator, and the bytes behind it keep it moved. -/
theorem singleBitErrorsDetected : Obligations.SingleBitErrorsDetected := by
  intro front back b k hk h
  rw [crc8_append, crc8_append] at h
  exact xor_twoPow_ne b hk (crcStep_right_injective (crcFold_injective (bs := back) h))

/-! ### The CRC of a stream of words (10_state.md section 7) -/

/-- Of the words other than CRC_CLR's, a legal CRC_BYTE folds its byte in and no other moves CRC. -/
theorem Block.afterWord_crc (b : Block) {v : Word} (hv : v ≠ 0x01000000#32) :
    (b.afterWord v).crc = crcFold b.crc (foldedByte? v).toList := by
  cases h : decode v with
  | command i =>
    rw [b.afterWord_command h, foldedByte?, h]
    cases i with
    | crcClr => exact absurd ((eq_encode_of_decode h).trans encode_crcClr) hv
    | nop | crcByte | crcCheck | lin11 | lin16 | statClr => rfl
  | illegal c =>
    rw [b.afterWord_illegal h, foldedByte?, h]
    rfl

theorem foldl_afterWord_crc {vs : List Word} (hvs : ∀ v ∈ vs, v ≠ 0x01000000#32) (b : Block) :
    (vs.foldl Block.afterWord b).crc = crcFold b.crc (vs.filterMap foldedByte?) := by
  induction vs generalizing b with
  | nil => rfl
  | cons v vs ih =>
    obtain ⟨hv, hvs⟩ := List.forall_mem_cons.1 hvs
    rw [List.foldl_cons, ih hvs, b.afterWord_crc hv, ← crcFold_append]
    cases h : foldedByte? v <;> simp [h]

theorem foldl_afterWord_ci (vs : List Word) (b : Block) :
    (vs.foldl Block.afterWord b).ci = b.ci + vs.length := by
  induction vs generalizing b with
  | nil => rfl
  | cons v vs ih =>
    rw [List.foldl_cons, ih, Block.afterWord_ci, List.length_cons]
    omega

/-- Settles O27: CRC_CLR sets the initial value, and the words after it fold their bytes in. -/
theorem crcOfAWordStream : Obligations.CrcOfAWordStream := by
  intro vs s hvs
  have hclr : s.block.afterWord 0x01000000#32 =
      { s.block with crc := 0x00#8, ci := s.block.ci + 1 } :=
    s.block.afterWord_command (encode_crcClr ▸ decode_encode .crcClr)
  refine ⟨_, runWords_eq_foldl _ s, ?_, foldl_afterWord_ci _ s.block⟩
  rw [List.foldl_cons, hclr]
  exact foldl_afterWord_crc hvs _

end Sys2Proof.Machine

/-! ## Values: `to_binary32` is exact, and what the decoders leave in FVAL
(40_linear.md R80 to R86) -/

namespace Sys2Proof.Machine

/-! ### The fields of a binary32 word -/

theorem msb_binary32_append (s : BitVec 1) (x : BitVec 8) (f : BitVec 23) :
    (s ++ x ++ f).msb = s.msb := by
  rw [BitVec.msb_append, if_neg (by decide), BitVec.msb_append, if_neg (by decide)]

theorem biasedExponent_append (s : BitVec 1) (x : BitVec 8) (f : BitVec 23) :
    biasedExponent (s ++ x ++ f) = x.toNat := by
  rw [biasedExponent, BitVec.extractLsb'_append_eq_of_le (by decide)]
  exact congrArg BitVec.toNat BitVec.extractLsb'_append_eq_right

theorem fractionBits_append (s : BitVec 1) (x : BitVec 8) (f : BitVec 23) :
    fractionBits (s ++ x ++ f) = f.toNat :=
  congrArg BitVec.toNat BitVec.extractLsb'_append_eq_right

/-- The magnitudes R84 is given for have their highest 1 bit at 15 or below. -/
theorem highestBit_le_fifteen {a k : Nat} (ha : a ≤ 32768) (h : 2 ^ k ≤ a) : k ≤ 15 :=
  (Nat.pow_le_pow_iff_right (by decide : 1 < 2)).1 (h.trans ha)

/-- Below the highest 1 bit, `23` bits hold the rest of the number. -/
theorem fraction_lt {a k : Nat} (hk : k ≤ 23) (h : a < 2 ^ (k + 1)) :
    (a - 2 ^ k) * 2 ^ (23 - k) < 2 ^ 23 := by
  have hrest : a - 2 ^ k < 2 ^ k := by rw [pow_succ] at h; omega
  calc (a - 2 ^ k) * 2 ^ (23 - k) < 2 ^ k * 2 ^ (23 - k) :=
        Nat.mul_lt_mul_of_pos_right hrest (Nat.two_pow_pos _)
    _ = 2 ^ 23 := by rw [← pow_add, Nat.add_sub_cancel' hk]

/-- The fraction with its hidden bit is the number, shifted to put its highest 1 bit at 23. -/
theorem significand_eq {a k : Nat} (hk : k ≤ 23) (h : 2 ^ k ≤ a) :
    2 ^ 23 + (a - 2 ^ k) * 2 ^ (23 - k) = a * 2 ^ (23 - k) := by
  have hhidden : 2 ^ 23 = 2 ^ k * 2 ^ (23 - k) := by rw [← pow_add, Nat.add_sub_cancel' hk]
  rw [hhidden, ← Nat.add_mul, Nat.add_sub_cancel' h]

section

variable {m e : Int} {k : Nat} (hm : m.natAbs ≤ 32768) (he : -16 ≤ e ∧ e ≤ 15)
  (hlo : 2 ^ k ≤ m.natAbs) (hhi : m.natAbs < 2 ^ (k + 1))

include hm he hlo hhi

/-- The encoding's fields are the rule's, none cut (R84). -/
theorem toBinary32_fields :
    (toBinary32 m e).msb = decide (m < 0) ∧
    biasedExponent (toBinary32 m e) = ((k : Int) + e + 127).toNat ∧
    fractionBits (toBinary32 m e) = (m.natAbs - 2 ^ k) * 2 ^ (23 - k) := by
  have hm0 : m ≠ 0 := by
    rintro rfl
    exact absurd hlo (Nat.two_pow_pos k).not_ge
  have hk := highestBit_le_fifteen hm hlo
  rw [toBinary32_ne_zero hm0, highestBit_unique hlo hhi, msb_binary32_append,
    biasedExponent_append, fractionBits_append]
  refine ⟨by cases decide (m < 0) <;> rfl, ?_, ?_⟩
  · rw [BitVec.toNat_ofInt]
    omega
  · rw [BitVec.toNat_ofNat, Nat.shiftLeft_eq, Nat.mod_eq_of_lt (fraction_lt (by omega) hhi)]

theorem isNormal32_toBinary32 : isNormal32 (toBinary32 m e) := by
  obtain ⟨-, hexp, -⟩ := toBinary32_fields hm he hlo hhi
  have hk := highestBit_le_fifteen hm hlo
  rw [isNormal32, hexp]
  omega

/-- For a non-zero mantissa the word denotes `M × 2^E` itself. -/
theorem binary32Value_toBinary32_of_bounds :
    binary32Value (toBinary32 m e) = linearValue m e := by
  obtain ⟨hmsb, hexp, hfrac⟩ := toBinary32_fields hm he hlo hhi
  have hk := highestBit_le_fifteen hm hlo
  have hexp0 : biasedExponent (toBinary32 m e) ≠ 0 :=
    (isNormal32_toBinary32 hm he hlo hhi).1.ne'
  have hpow : (((k : Int) + e + 127).toNat : Int) - 150 = e - ((23 - k : Nat) : Int) := by omega
  have hmag : ((m.natAbs * 2 ^ (23 - k) : Nat) : ℚ) * 2 ^ (e - ((23 - k : Nat) : Int)) =
      m.natAbs * 2 ^ e := by
    rw [zpow_sub₀ two_ne_zero, zpow_natCast]
    push_cast
    field_simp
  rw [binary32Value, if_neg hexp0, hexp, hfrac, hmsb, significand_eq (by omega) hlo, hpow, hmag,
    linearValue]
  by_cases hneg : m < 0
  · simp [hneg, abs_of_neg (Int.cast_lt_zero.2 hneg)]
  · simp [hneg, abs_of_nonneg (Int.cast_nonneg (not_lt.1 hneg))]

end

/-- The encoding is exact over the whole range R84 gives it for. -/
theorem binary32Value_toBinary32 {m e : Int} (hm : m.natAbs ≤ 32768) (he : -16 ≤ e ∧ e ≤ 15) :
    binary32Value (toBinary32 m e) = linearValue m e := by
  by_cases hm0 : m = 0
  · rw [hm0, toBinary32_zero]
    simp [linearValue, binary32Value, biasedExponent, fractionBits]
  · obtain ⟨hlo, hhi⟩ := highestBit_bounds (Int.natAbs_ne_zero.2 hm0)
    exact binary32Value_toBinary32_of_bounds hm he hlo hhi

/-- Settles O31: the fields at the highest 1 bit, and the value and normality that follow. -/
theorem binary32IsExact : Obligations.Binary32IsExact := by
  intro m e hmlo hmhi helo hehi
  have hm : m.natAbs ≤ 32768 := by omega
  have he : -16 ≤ e ∧ e ≤ 15 := ⟨helo, hehi⟩
  refine ⟨fun h => h ▸ toBinary32_zero e, fun k hlo hhi => ?_, binary32Value_toBinary32 hm he,
    fun hm0 => ?_⟩
  · have hk := highestBit_le_fifteen hm hlo
    exact ⟨hk, by omega, by omega, fraction_lt (by omega) hhi, toBinary32_fields hm he hlo hhi⟩
  · obtain ⟨hlo, hhi⟩ := highestBit_bounds (Int.natAbs_ne_zero.2 hm0)
    exact isNormal32_toBinary32 hm he hlo hhi

/-! ### What the decoders leave in FVAL -/

/-- A linear exponent is a 5-bit two's-complement integer (R80, R82). -/
theorem exponent_bounds (x : BitVec 5) : -16 ≤ sext x ∧ sext x ≤ 15 :=
  ⟨BitVec.le_toInt x, Int.le_of_lt_add_one BitVec.toInt_lt⟩

/-- A linear16 mantissa is a 16-bit two's-complement integer (R82). -/
theorem lin16Mantissa_bounds (w : Half) : -32768 ≤ sext w ∧ sext w ≤ 32767 :=
  ⟨BitVec.le_toInt w, Int.le_of_lt_add_one BitVec.toInt_lt⟩

theorem exec_lin11_value (w : Half) (s : State) : ∃ t, exec (.lin11 w) s = .next t ∧
    binary32Value t.block.fval =
      linearValue (sext (lin11Mantissa w)) (sext (lin11Exponent w)) := by
  have hm := lin11Mantissa_bounds w
  exact ⟨_, exec_lin11_fields s w, binary32Value_toBinary32 (by omega) (exponent_bounds _)⟩

theorem exec_lin16_value (b : Byte) (w : Half) (s : State) : ∃ t, exec (.lin16 b w) s = .next t ∧
    binary32Value t.block.fval = linearValue (sext w) (sext (lin16Exponent b)) := by
  have hm := lin16Mantissa_bounds w
  exact ⟨_, exec_lin16 s b w, binary32Value_toBinary32 (by omega) (exponent_bounds _)⟩

/-- Settles O32: FVAL is `to_binary32` of the fields, and that is exact. -/
theorem decodedValueIsExact : Obligations.DecodedValueIsExact :=
  ⟨exec_lin11_value, exec_lin16_value⟩

/-! ### Ranges (R83) -/

/-- The largest exponent, 15, bounds the value on either side of zero. -/
theorem linearValue_bounds {lo hi m e : Int} (hlo : lo ≤ 0) (hhi : 0 ≤ hi)
    (hm : lo ≤ m ∧ m ≤ hi) (he : e ≤ 15) :
    (lo : ℚ) * 2 ^ 15 ≤ linearValue m e ∧ linearValue m e ≤ (hi : ℚ) * 2 ^ 15 := by
  obtain ⟨hlom, hmhi⟩ := hm
  have hpos : (0 : ℚ) < 2 ^ e := zpow_pos two_pos e
  have hle : (2 : ℚ) ^ e ≤ 2 ^ 15 := by
    exact_mod_cast zpow_le_zpow_right₀ (one_le_two (α := ℚ)) he
  constructor
  · calc (lo : ℚ) * 2 ^ 15 ≤ lo * 2 ^ e :=
          mul_le_mul_of_nonpos_left hle (Int.cast_nonpos.2 hlo)
      _ ≤ m * 2 ^ e := mul_le_mul_of_nonneg_right (Int.cast_le.2 hlom) hpos.le
  · calc (m : ℚ) * 2 ^ e ≤ hi * 2 ^ e := mul_le_mul_of_nonneg_right (Int.cast_le.2 hmhi) hpos.le
      _ ≤ hi * 2 ^ 15 := mul_le_mul_of_nonneg_left hle (Int.cast_nonneg hhi)

theorem linearValue_eq_zero_iff (m e : Int) : linearValue m e = 0 ↔ m = 0 := by
  simp [linearValue, zpow_ne_zero]

/-- A non-zero value is at least one unit at the least exponent, −16. -/
theorem le_abs_linearValue {m e : Int} (hm : m ≠ 0) (he : -16 ≤ e) :
    (2 : ℚ) ^ (-16 : Int) ≤ |linearValue m e| := by
  have hone : (1 : ℚ) ≤ |(m : ℚ)| := by exact_mod_cast Int.one_le_abs hm
  have hpos : (0 : ℚ) < 2 ^ e := zpow_pos two_pos e
  calc (2 : ℚ) ^ (-16 : Int) ≤ 2 ^ e := zpow_le_zpow_right₀ one_le_two he
    _ = 1 * 2 ^ e := (one_mul _).symm
    _ ≤ |(m : ℚ)| * 2 ^ e := mul_le_mul_of_nonneg_right hone hpos.le
    _ = |linearValue m e| := by rw [linearValue, abs_mul, abs_of_pos hpos]

theorem sext_eq_zero_iff {n : Nat} (v : BitVec n) : sext v = 0 ↔ v = 0#n := by
  rw [sext, ← BitVec.toInt_zero (w := n), BitVec.toInt_inj]

/-- The least magnitude and the only zero of a decode with mantissa field `v`. -/
theorem linearValue_sext_magnitude {n : Nat} (v : BitVec n) (x : BitVec 5) :
    (linearValue (sext v) (sext x) = 0 ↔ v = 0#n) ∧
      (v ≠ 0#n → (2 : ℚ) ^ (-16 : Int) ≤ |linearValue (sext v) (sext x)|) :=
  ⟨(linearValue_eq_zero_iff _ _).trans (sext_eq_zero_iff v),
    fun hv => le_abs_linearValue (mt (sext_eq_zero_iff v).1 hv) (exponent_bounds x).1⟩

theorem exec_lin11_range (w : Half) (s : State) : ∃ t, exec (.lin11 w) s = .next t ∧
    -33554432 ≤ binary32Value t.block.fval ∧ binary32Value t.block.fval ≤ 33521664 ∧
    (binary32Value t.block.fval = 0 ↔ lin11Mantissa w = 0#11) ∧
    (lin11Mantissa w ≠ 0#11 → (2 : ℚ) ^ (-16 : Int) ≤ |binary32Value t.block.fval|) := by
  obtain ⟨t, ht, hval⟩ := exec_lin11_value w s
  obtain ⟨hlo, hhi⟩ := linearValue_bounds (by decide) (by decide) (lin11Mantissa_bounds w)
    (exponent_bounds (lin11Exponent w)).2
  refine ⟨t, ht, ?_⟩
  rw [hval]
  exact ⟨le_trans (by norm_num) hlo, hhi.trans (by norm_num), linearValue_sext_magnitude _ _⟩

theorem exec_lin16_range (b : Byte) (w : Half) (s : State) : ∃ t, exec (.lin16 b w) s = .next t ∧
    -1073741824 ≤ binary32Value t.block.fval ∧ binary32Value t.block.fval ≤ 1073709056 ∧
    (binary32Value t.block.fval = 0 ↔ w = 0#16) ∧
    (w ≠ 0#16 → (2 : ℚ) ^ (-16 : Int) ≤ |binary32Value t.block.fval|) := by
  obtain ⟨t, ht, hval⟩ := exec_lin16_value b w s
  obtain ⟨hlo, hhi⟩ := linearValue_bounds (by decide) (by decide) (lin16Mantissa_bounds w)
    (exponent_bounds (lin16Exponent b)).2
  refine ⟨t, ht, ?_⟩
  rw [hval]
  exact ⟨le_trans (by norm_num) hlo, hhi.trans (by norm_num), linearValue_sext_magnitude _ _⟩

/-- The value a LIN11 leaves, from its fields as integers. -/
theorem exec_lin11_value_of_fields {w : Half} {m e : Int} {x : ℚ} (s : State)
    (hm : sext (lin11Mantissa w) = m) (he : sext (lin11Exponent w) = e)
    (hx : linearValue m e = x) :
    ∃ t, exec (.lin11 w) s = .next t ∧ binary32Value t.block.fval = x := by
  subst hm he hx
  exact exec_lin11_value w s

/-- The value a LIN16 leaves, from its fields as integers. -/
theorem exec_lin16_value_of_fields {b : Byte} {w : Half} {m e : Int} {x : ℚ} (s : State)
    (hm : sext w = m) (he : sext (lin16Exponent b) = e) (hx : linearValue m e = x) :
    ∃ t, exec (.lin16 b w) s = .next t ∧ binary32Value t.block.fval = x := by
  subst hm he hx
  exact exec_lin16_value b w s

/-- Settles O33: the ranges, and six commands that reach their ends and the least magnitude. -/
theorem decodedValueRanges : Obligations.DecodedValueRanges := by
  refine ⟨exec_lin11_range, exec_lin16_range, fun i x hix s => ?_⟩
  simp only [List.mem_cons, List.not_mem_nil, or_false, Prod.mk.injEq] at hix
  obtain ⟨rfl, rfl⟩ | ⟨rfl, rfl⟩ | ⟨rfl, rfl⟩ | ⟨rfl, rfl⟩ | ⟨rfl, rfl⟩ | ⟨rfl, rfl⟩ := hix
  · exact exec_lin11_value_of_fields (m := -1024) (e := 15) s (by decide) (by decide)
      (by norm_num [linearValue])
  · exact exec_lin11_value_of_fields (m := 1023) (e := 15) s (by decide) (by decide)
      (by norm_num [linearValue])
  · exact exec_lin11_value_of_fields (m := 1) (e := -16) s (by decide) (by decide)
      (by norm_num [linearValue])
  · exact exec_lin16_value_of_fields (m := -32768) (e := 15) s (by decide) (by decide)
      (by norm_num [linearValue])
  · exact exec_lin16_value_of_fields (m := 32767) (e := 15) s (by decide) (by decide)
      (by norm_num [linearValue])
  · exact exec_lin16_value_of_fields (m := 1) (e := -16) s (by decide) (by decide)
      (by norm_num [linearValue])

/-! ### What the host reads of STATUS and of a decode (10_state.md sections 3 and 4) -/

/-- The fields of STATUS at their bits (R25). -/
theorem statusWord_fields (b : Block) :
    (statusWord b).getLsbD 0 = b.pecerr ∧ (statusWord b).getLsbD 1 = b.ill ∧
    (statusWord b).extractLsb' 2 2 = b.rkind ∧ (statusWord b).extractLsb' 4 2 = b.cause ∧
    (statusWord b).extractLsb' 6 26 = 0#26 := by
  unfold statusWord
  generalize b.pecerr = p, b.ill = i, b.rkind = k, b.cause = c
  revert p i k c
  decide

/-- Settles O35: a read of 0x04 is `statusWord`. -/
theorem statusLayout : Obligations.StatusLayout := statusWord_fields

/-- Settles O34: each register is read as `Block.afterCommand` has it. -/
theorem hostReadsBackTheDecode : Obligations.HostReadsBackTheDecode := by
  refine ⟨fun w s => ⟨_, exec_lin11_fields s w, ?_, rfl, rfl, ?_⟩,
    fun b w s => ⟨_, exec_lin16 s b w, rfl, rfl, rfl, ?_⟩⟩
  · rw [hostReadValue_mant, sext_signExtend (by decide)]
    rfl
  · obtain ⟨-, -, hkind, -, -⟩ := statusWord_fields _
    exact hkind
  · obtain ⟨-, -, hkind, -, -⟩ := statusWord_fields _
    exact hkind

end Sys2Proof.Machine

/-! ## Runs: the error record, `ci` and the independence of the parts over words
(10_state.md sections 4 to 7) -/

namespace Sys2Proof.Machine

/-! ### The error record -/

/-- The error record (10_state.md R27, R29, R30). -/
def Block.record (b : Block) : Bool × BitVec 2 × BitVec 32 := (b.ill, b.cause, b.badcmd)

/-- A legal word of any command but STAT_CLR leaves the record. -/
theorem Block.afterWord_record (b : Block) {v : Word} {i : Instr} (h : decode v = .command i)
    (hi : i ≠ .statClr) : (b.afterWord v).record = b.record := by
  rw [b.afterWord_command h]
  cases i with
  | statClr => exact absurd rfl hi
  | nop | crcClr | crcByte | crcCheck | lin11 | lin16 => rfl

theorem foldl_afterWord_record {vs : List Word}
    (hvs : ∀ w ∈ vs, ∃ i, decode w = .command i ∧ i ≠ .statClr) (b : Block) :
    (vs.foldl Block.afterWord b).record = b.record := by
  induction vs generalizing b with
  | nil => rfl
  | cons v vs ih =>
    obtain ⟨⟨i, hd, hi⟩, hvs⟩ := List.forall_mem_cons.1 hvs
    rw [List.foldl_cons, ih hvs, b.afterWord_record hd hi]

/-- NOP's word is legal, so no illegal word is 0. -/
theorem ne_zero_of_illegal {v : Word} {c : IllegalCause} (h : decode v = .illegal c) :
    v ≠ 0x00000000#32 := by
  rintro rfl
  have hnop := decode_encode .nop
  rw [encode_nop, h] at hnop
  cases hnop

theorem causeCode_ne_zero (c : IllegalCause) : causeCode c ≠ 0#2 := by
  cases c <;> decide

/-- Under the invariant the three parts of the record are there together or not at all. -/
theorem Block.Inv.record_iff {b : Block} (h : b.Inv) :
    (b.cause = 0#2 ↔ b.ill = false) ∧ (b.badcmd ≠ 0x00000000#32 ↔ b.ill = true) := by
  cases hill : b.ill with
  | false => simp [h.clear hill]
  | true =>
    obtain ⟨c, hd, hc⟩ := h.record hill
    simp [hc, causeCode_ne_zero c, ne_zero_of_illegal hd]

/-- Settles O39: an illegal word writes the record, and legal words but STAT_CLR's keep it. -/
theorem recordIsTheLatestIllegalWord : Obligations.RecordIsTheLatestIllegalWord := by
  refine ⟨fun v c vs s hd hvs => ⟨_, runWords_eq_foldl (v :: vs) s, ?_⟩,
    fun s => ⟨_, exec_statClr s, rfl, rfl⟩, fun _ => ⟨rfl, rfl⟩, fun _ _ => ne_zero_of_illegal,
    fun _ => Block.Inv.record_iff⟩
  have hrec := foldl_afterWord_record hvs (s.block.afterWord v)
  rw [s.block.afterWord_illegal hd] at hrec
  simpa [Block.record, s.block.afterWord_illegal hd] using hrec

/-! ### The parts of the block do not influence one another -/

/-- If what is projected from the block after a word depends only on what is projected before it, the
same is so over any words. -/
theorem foldl_afterWord_congr {α : Type} (proj : Block → α) (vs : List Word) {b b' : Block}
    (hkeep : ∀ (v : Word) (c c' : Block), proj c = proj c' →
      proj (c.afterWord v) = proj (c'.afterWord v))
    (h : proj b = proj b') :
    proj (vs.foldl Block.afterWord b) = proj (vs.foldl Block.afterWord b') :=
  List.foldl_rel (r := fun c c' => proj c = proj c') h fun v _ => hkeep v

theorem afterWord_crc_congr (v : Word) (b b' : Block) (h : b.crc = b'.crc) :
    (b.afterWord v).crc = (b'.afterWord v).crc := by
  unfold Block.afterWord
  cases decode v with
  | command i =>
    cases i with
    | crcClr => rfl
    | crcByte x => exact congrArg (crcStep · x) h
    | nop | crcCheck | lin11 | lin16 | statClr => exact h
  | illegal c => exact h

theorem afterWord_pec_congr (v : Word) (b b' : Block)
    (h : (b.crc, b.pecerr) = (b'.crc, b'.pecerr)) :
    ((b.afterWord v).crc, (b.afterWord v).pecerr) =
      ((b'.afterWord v).crc, (b'.afterWord v).pecerr) := by
  obtain ⟨hcrc, hpecerr⟩ := Prod.mk.inj h
  unfold Block.afterWord
  cases decode v with
  | command i =>
    cases i with
    | crcClr => exact Prod.ext rfl hpecerr
    | crcByte x => exact Prod.ext (congrArg (crcStep · x) hcrc) hpecerr
    | crcCheck p => exact Prod.ext hcrc (congrArg (fun c => decide (c ≠ p)) hcrc)
    | statClr => exact Prod.ext hcrc rfl
    | nop | lin11 | lin16 => exact h
  | illegal c => exact h

theorem afterWord_results_congr (v : Word) (b b' : Block) (h : b.results = b'.results) :
    (b.afterWord v).results = (b'.afterWord v).results := by
  unfold Block.afterWord
  cases decode v with
  | command i =>
    cases i with
    | lin11 | lin16 => rfl
    | nop | crcClr | crcByte | crcCheck | statClr => exact h
  | illegal c => exact h

theorem afterWord_record_congr (v : Word) (b b' : Block) (h : b.record = b'.record) :
    (b.afterWord v).record = (b'.afterWord v).record := by
  unfold Block.afterWord
  cases decode v with
  | command i =>
    cases i with
    | statClr => rfl
    | nop | crcClr | crcByte | crcCheck | lin11 | lin16 => exact h
  | illegal c => rfl

/-- Settles O41: each part's registers after a word are settled by its own registers before. -/
theorem partsDoNotInterfere : Obligations.PartsDoNotInterfere := by
  refine fun vs s s' => ⟨_, _, runWords_eq_foldl vs s, runWords_eq_foldl vs s',
    foldl_afterWord_congr Block.crc vs afterWord_crc_congr, fun hcrc hpecerr => ?_,
    foldl_afterWord_congr Block.results vs afterWord_results_congr,
    foldl_afterWord_congr Block.record vs afterWord_record_congr⟩
  have hpec := foldl_afterWord_congr (fun b => (b.crc, b.pecerr)) vs afterWord_pec_congr
    (Prod.ext hcrc hpecerr)
  exact (Prod.mk.inj hpec).2

/-! ### `ci` -/

theorem step_ci {s t : State} {e : Event} {rest : List Event} (hp : s.pending = e :: rest)
    (h : step s = .next t) :
    t.block.ci = if e = .reset then 0
      else if e.commandWord?.isSome then s.block.ci + 1 else s.block.ci := by
  obtain ⟨hq, -⟩ | ⟨host, off, rest', hq, -, rfl⟩ | ⟨host, off, v, rest', hq, -, hoff, rfl⟩ |
    ⟨host, v, rest', hq, -, hw⟩ | ⟨rest', hq, rfl⟩ | ⟨rest', hq, rfl⟩ := step_cases h <;>
    rw [hp] at hq <;> cases hq
  · rfl
  · simp [Event.commandWord?, hoff]
  · rw [commandWrite_eq_afterWord] at hw
    cases hw
    exact Block.afterWord_ci _ v
  · rfl
  · rfl

theorem Block.afterCommand_with_ci (b : Block) (i : Instr) (n : Nat) :
    ({ b with ci := n } : Block).afterCommand i = { b.afterCommand i with ci := n } := by
  cases i <;> rfl

/-- Settles O40: each word counts once, and `ci` is in no command's and no read's argument. -/
theorem ciCountsCommandWords : Obligations.CiCountsCommandWords := by
  refine ⟨fun _ _ _ _ => step_ci, fun vs s => ⟨_, runWords_eq_foldl vs s, foldl_afterWord_ci vs _⟩,
    fun _ _ _ => rfl, fun i s n => ⟨_, exec_eq_afterCommand i s, ?_⟩⟩
  rw [exec_eq_afterCommand, Block.afterCommand_with_ci]

end Sys2Proof.Machine

/-! ## Steps: what a host access, a reset and a loss of power do (20_memory.md sections 1 to 6,
60_exceptions.md, 70_reset_and_hazards.md) -/

namespace Sys2Proof.Machine

section

variable {s t : State} {host : Nat} {rest : List Event}

/-! ### Admitted accesses -/

theorem step_of_admits {a : Access} (hp : s.pending = .access host a :: rest)
    (h : s.admits host a) :
    step s = performAccess a { s with pending := rest, boundHost := some host } :=
  (step_of_cons hp).trans (handleAccess_of_admits (s := { s with pending := rest }) h)

theorem step_cmdWrite {v : Word} (hp : s.pending = .access host (.memWrite 0x00#8 4 v) :: rest)
    (h : s.admits host (.memWrite 0x00#8 4 v)) :
    step s = commandWrite v { s with pending := rest, boundHost := some host } :=
  step_of_admits hp h

theorem step_otherWrite {off : Offset} {n : Nat} {v : Word}
    (hp : s.pending = .access host (.memWrite off n v) :: rest)
    (h : s.admits host (.memWrite off n v)) (hoff : off ≠ 0x00#8) :
    step s = .next { s with pending := rest, boundHost := some host } :=
  (step_of_admits hp h).trans (if_neg hoff)

theorem step_read {off : Offset} {n : Nat} (hp : s.pending = .access host (.memRead off n) :: rest)
    (h : s.admits host (.memRead off n)) :
    step s = .next { s with
      pending := rest, boundHost := some host, reads := s.reads ++ [hostReadValue off s.block] } :=
  step_of_admits hp h

/-! ### Refused accesses -/

theorem step_secondHost {a : Access} (hp : s.pending = .access host a :: rest)
    (h : s.admitsHost host = false) : step s = .refused .secondHost :=
  (step_of_cons hp).trans (if_pos h)

theorem step_unsupported {a : Access} (hp : s.pending = .access host a :: rest)
    (hhost : s.boundHost = none ∨ s.boundHost = some host) (h : a.supported = false) :
    step s = .refused .unsupportedAccess := by
  have hadmit := (s.admitsHost_iff host).2 hhost
  exact (step_of_cons hp).trans ((if_neg (ne_false_of_eq_true hadmit)).trans (if_pos h))

theorem step_reservedStatus {a : Access} (hp : s.pending = .access host a :: rest)
    (hhost : s.boundHost = none ∨ s.boundHost = some host) (hsup : a.supported = true)
    (h : s.block.holdsReservedStatus = true) : step s = .refused .reservedLaunchState := by
  have hadmit := (s.admitsHost_iff host).2 hhost
  exact (step_of_cons hp).trans ((if_neg (ne_false_of_eq_true hadmit)).trans
    ((if_neg (ne_false_of_eq_true hsup)).trans (if_pos h)))

/-! ### Runs of the machine -/

theorem run_succ (k : Nat) (h : step s = .next t) :
    Sys2Proof.core.run (k + 1) s = Sys2Proof.core.run k t := by
  simp only [Host.Core.run, Host.Check.core_step, h]

theorem run_succ_refused (k : Nat) {r : Refusal} (h : step s = .refused r) :
    Sys2Proof.core.run (k + 1) s = .refused r := by
  simp only [Host.Core.run, Host.Check.core_step, h]

theorem run_two {u : State} (h : step s = .next t) (h' : step t = .next u) :
    Sys2Proof.core.run 2 s = .next u :=
  (run_succ 1 h).trans (run_succ 0 h')

end

/-! ### Reads and writes -/

/-- The offsets from 0x1C on are reserved (R41). -/
theorem offset_reserved : ∀ off : Offset, 0x1C ≤ off.toNat →
    off ∉ [0x00#8, 0x04#8, 0x08#8, 0x0C#8, 0x10#8, 0x14#8, 0x18#8] := by
  decide

/-- The host an access has bound may make the same access again. -/
theorem admits_after_access {s : State} {host : Nat} {a : Access} {p : List Event} {r : List Word}
    (h : s.admits host a) :
    { s with pending := p, boundHost := some host, reads := r }.admits host a :=
  ⟨.inr rfl, h.2⟩

/-- Settles O43: a read touches nothing of the block, so the next one returns the same value. -/
theorem hostReadReturnsTheRegister : Obligations.HostReadReturnsTheRegister := by
  refine ⟨fun s host off rest => step_read, fun b => ⟨rfl, rfl, BitVec.ofNat_toNat 32 b.crc, rfl,
    rfl, rfl, rfl, fun off hoff => hostReadValue_reserved b (offset_reserved off hoff)⟩,
    fun s host off rest hp hadm => ⟨hostReadValue off s.block, ?_⟩⟩
  rw [run_two (step_read hp hadm) (step_read rfl (admits_after_access hadm)), List.append_assoc]
  rfl

/-- Settles O44: a write to CMD is `commandWrite`, which runs the word and then counts. -/
theorem hostWriteRunsOrIsIgnored : Obligations.HostWriteRunsOrIsIgnored := by
  refine ⟨fun s host v rest hp hadm => ?_, fun s host off v rest => step_otherWrite⟩
  obtain ⟨b, hb, -⟩ :=
    executeWord_changes_block_only { s with pending := rest, boundHost := some host } v
  exact ⟨_, hb, (step_cmdWrite hp hadm).trans (commandWrite_of_execute _ hb)⟩

theorem commandWrite_decoded (s : State) {v : Word} {i : Instr} (h : decode v = .command i) :
    commandWrite v s =
      .next { s with block := { s.block.afterCommand i with ci := s.block.ci + 1 } } := by
  rw [commandWrite_eq_afterWord, s.block.afterWord_command h]

theorem decode_tableWord {n w : Nat} {i : Instr} (h : decodeTableWord n w = some i) :
    decode (tableWord n w) = .command i := by
  unfold decodeTableWord at h
  cases hd : decode (tableWord n w) with
  | command j => simpa [hd, Decoded.command?] using h
  | illegal c => simp [hd, Decoded.command?] at h

/-- A word placed by `withFetchWord` is written by the bound host, or by the first (log entry 3). -/
theorem admits_withFetchWord {s : State} (w : Nat) (hk : s.block.rkind ≠ rkindReserved)
    (hc : s.block.cause ≠ causeReserved) :
    (s.withFetchWord 32 w).admits s.currentHost (.memWrite 0x00#8 4 (tableWord 32 w)) := by
  refine ⟨?_, rfl, hk, hc⟩
  cases h : s.boundHost <;> simp [State.withFetchWord, State.currentHost, h]

/-- Settles O42: a write to CMD is `commandWrite`, which is `exec` for a legal word. -/
theorem stepRunsTheDecodedCommand : Obligations.StepRunsTheDecodedCommand := by
  refine ⟨fun s host v rest i hp hadm hd => ?_, fun s w i hd hk hc => ?_⟩
  · rw [step_cmdWrite hp hadm, commandWrite_decoded _ hd, exec_eq_afterCommand]
    simp
  · rw [step_cmdWrite rfl (admits_withFetchWord w hk hc),
      commandWrite_decoded _ (decode_tableWord hd), exec_eq_afterCommand]
    simp [State.withFetchWord, State.placeCommand, State.currentHost]

/-- Settles O48: each of the three kinds of admitted access has a next state. -/
theorem everySupportedAccessRuns : Obligations.EverySupportedAccessRuns := by
  intro s host a rest hp hadm
  cases a with
  | memRead off n => exact ⟨_, step_read hp hadm, rfl, rfl⟩
  | memWrite off n v =>
    by_cases hoff : off = 0x00#8
    · subst hoff
      exact ⟨_, (step_of_admits hp hadm).trans (commandWrite_eq_afterWord v _), rfl, rfl⟩
    · exact ⟨_, step_otherWrite hp hadm hoff, rfl, rfl⟩

/-! ### Refusals -/

/-- Settles O45: such an access is not supported, and only the host check comes before. -/
theorem unsupportedAccessIsRefused : Obligations.UnsupportedAccessIsRefused := by
  refine ⟨fun s host n off rest hp hn hhost => step_unsupported hp hhost ?_,
    fun s host n off v rest hp hn hhost => step_unsupported hp hhost ?_⟩
  · rw [Bool.eq_false_iff, Ne, Access.supported_memRead_iff]
    tauto
  · rw [Bool.eq_false_iff, Ne, Access.supported_memWrite_iff]
    tauto

theorem step_keeps_boundHost {s t : State} {host : Nat} (hb : s.boundHost = some host)
    (h : step s = .next t) : t.boundHost = some host := by
  have hsame : ∀ {n : Nat} {a : Access}, s.admits n a → n = host := by
    rintro n a ⟨hnone | hsome, -⟩
    · simp [hb] at hnone
    · exact Option.some.inj (hsome.symm.trans hb)
  obtain ⟨-, rfl⟩ | ⟨n, off, rest, -, hadm, rfl⟩ | ⟨n, off, v, rest, -, hadm, -, rfl⟩ |
    ⟨n, v, rest, -, hadm, hw⟩ | ⟨rest, -, rfl⟩ | ⟨rest, -, rfl⟩ := step_cases h
  · exact hb
  · exact congrArg some (hsame hadm)
  · exact congrArg some (hsame hadm)
  · rw [commandWrite_eq_afterWord] at hw
    cases hw
    exact congrArg some (hsame hadm)
  · exact hb
  · exact hb

/-- Settles O46: the host check comes first, and an admitted access binds the host already bound. -/
theorem secondHostIsRefused : Obligations.SecondHostIsRefused := by
  refine ⟨fun s host other a rest hp hb hne => step_secondHost hp ?_,
    fun _ _ _ => step_keeps_boundHost⟩
  simp [State.admitsHost, hb, hne.symm]

/-- Settles O49: the launch check comes after the host's and the access's own. -/
theorem excludedCasesAreRefused : Obligations.ExcludedCasesAreRefused :=
  ⟨fun _ _ _ _ hp => step_of_cons hp, fun s _ _ _ hp hhost hsup hres =>
    step_reservedStatus hp hhost hsup (s.block.holdsReservedStatus_iff.2 hres)⟩

/-! ### Reset, loss of power and idle steps -/

theorem step_reset {s : State} {rest : List Event} (hp : s.pending = .reset :: rest) :
    step s = .next { s with pending := rest, block := Block.reset } :=
  step_of_cons hp

theorem step_powerLoss {s : State} {rest : List Event} (hp : s.pending = .powerLoss :: rest) :
    step s = .next { s with pending := rest }.losePower :=
  step_of_cons hp

/-- Settles O1: a reset is `Block.reset`, every register of which reads zero. -/
theorem resetSetsEveryRegister : Obligations.ResetSetsEveryRegister := by
  refine ⟨fun _ _ => step_reset, rfl, fun off => ?_⟩
  revert off
  decide

/-- Settles O50: the reset sets the whole block, whatever the loss of power left in it. -/
theorem resetRecoversFromPowerLoss : Obligations.ResetRecoversFromPowerLoss := by
  intro s rest hp
  exact ⟨_, run_two (step_powerLoss hp) (step_reset rfl), rfl, rfl, rfl, rfl⟩

/-- Settles O47: of the ways a step can touch the block, none is left. -/
theorem blockNeverActsAlone : Obligations.BlockNeverActsAlone := by
  refine ⟨fun s t h hup hcmd => ?_, fun _ => step_of_nil⟩
  obtain hb | hup' | ⟨i, -, -, hv, -⟩ | ⟨v, -, -, hv, -⟩ := step_block_cases h
  · exact hb
  · exact absurd hup' hup
  · exact absurd ⟨_, hv⟩ hcmd
  · exact absurd ⟨v, hv⟩ hcmd

/-! ### Runs over the event queue (R158) -/

theorem runEvents_cons {s t : State} {e : Event} (es : List Event)
    (h : handleEvent e s = .next t) : runEvents (e :: es) s = runEvents es t := by
  simp [runEvents, h]

theorem runEvents_cons_refused {s : State} {e : Event} {r : Refusal} (es : List Event)
    (h : handleEvent e s = .refused r) : runEvents (e :: es) s = .refused r := by
  simp [runEvents, h]

/-- What an access does, it does whatever events are to come, and it leaves them. -/
theorem performAccess_with_pending (a : Access) (s : State) : ∃ t : State, ∀ p : List Event,
    performAccess a { s with pending := p } = .next { t with pending := p } := by
  cases a with
  | memRead off n => exact ⟨s.recordRead (hostReadValue off s.block), fun _ => rfl⟩
  | memWrite off n v =>
    by_cases hoff : off = 0x00#8
    · exact ⟨{ s with block := s.block.afterWord v },
        fun p => (if_pos hoff).trans (commandWrite_eq_afterWord v _)⟩
    · exact ⟨s, fun p => if_neg hoff⟩

/-- What an event does, it does whatever events are to come, and it leaves them. -/
theorem handleEvent_with_pending (e : Event) (s : State) :
    (∃ t : State, ∀ p : List Event,
      handleEvent e { s with pending := p } = .next { t with pending := p }) ∨
    ∃ r : Refusal, ∀ p : List Event, handleEvent e { s with pending := p } = .refused r := by
  cases e with
  | access host a =>
    by_cases h1 : s.admitsHost host = false
    · exact .inr ⟨.secondHost, fun _ => if_pos h1⟩
    by_cases h2 : a.supported = false
    · exact .inr ⟨.unsupportedAccess, fun _ => (if_neg h1).trans (if_pos h2)⟩
    by_cases h3 : s.block.holdsReservedStatus = true
    · exact .inr ⟨.reservedLaunchState,
        fun _ => (if_neg h1).trans ((if_neg h2).trans (if_pos h3))⟩
    obtain ⟨t, ht⟩ := performAccess_with_pending a (s.bindHost host)
    exact .inl ⟨t, fun p => (if_neg h1).trans ((if_neg h2).trans ((if_neg h3).trans (ht p)))⟩
  | reset => exact .inl ⟨s.resetBlock, fun _ => rfl⟩
  | resetDuring host a => exact .inr ⟨.resetDuringAccess, fun _ => rfl⟩
  | powerLoss => exact .inl ⟨s.losePower, fun _ => rfl⟩

/-- Settles O51, by induction on the events: each is taken off the queue and does what it does
without one. -/
theorem runOfEventsIsSteps : Obligations.RunOfEventsIsSteps := by
  intro es
  induction es with
  | nil => exact fun _ => rfl
  | cons e es ih =>
    intro s
    have hstep : step { s with pending := e :: es } = handleEvent e { s with pending := es } :=
      step_of_cons rfl
    obtain ⟨t, ht⟩ | ⟨r, hr⟩ := handleEvent_with_pending e s
    · rw [List.length_cons, run_succ _ (hstep.trans (ht es)), ih, runEvents_cons es (ht [])]
    · exact (run_succ_refused _ (hstep.trans (hr es))).trans
        (runEvents_cons_refused es (hr [])).symm

/-! ### The host address map -/

/-- Settles O52: an address in the 256 bytes is its offset above the base. -/
theorem hostAddressesSelectOffsets : Obligations.HostAddressesSelectOffsets := by
  refine ⟨fun base off => ?_, fun base addr => ?_⟩
  · have hoff := off.isLt
    rw [offsetOfAddress, hostAddress, if_pos (by omega), Nat.add_sub_cancel_left]
    simp
  · rw [offsetOfAddress]
    split_ifs with h <;> simp <;> omega

end Sys2Proof.Machine
